-- ==== Sys2Proof/Word.lean ====
section
/-! DEFINITION. The word types of the block (spec/00_scope.md R7, R8): a word `bits(N)` is an unsigned
N-bit word, bit 0 the least significant. Arithmetic on `BitVec` wraps modulo 2^N and `>>>` is the
logical right shift, as R9 and R10 ask. -/

namespace Sys2Proof

/-- One 8-bit unit of a key (R7, R40). -/
abbrev Byte := BitVec 8

/-- The accumulator and block word of HASH32 and FMIX32, and every 32-bit request field (R7). -/
abbrev W32 := BitVec 32

/-- One lane of HASH128X64, the operand of FMIX64 and the ARG field (R7). -/
abbrev W64 := BitVec 64

/-- The RESULT bus (R7, R31). -/
abbrev W128 := BitVec 128

end Sys2Proof
end

