-- ==== Sys2Proof/Config.lean ====
section
/-! DEFINITION. What the spec leaves to the implementation (R7, spec/93_implementation_defined.md): the
number of channels and the values the spec calls "any value". All of them are opaque: no statement can
rest on what they are. LATENCY, the other open parameter of R7, needs no constant: the model keeps no
time (log 15). -/

namespace Sys2Proof.Config

/-- The channels beyond the first: R7 leaves NCH open but for NCH ≥ 1. DESIGN CHOICE (log 2), safe. -/
opaque moreChannels : Nat

/-- NCH, the number of independent requester channels, a natural number ≥ 1 (R7, R35). -/
def nch : Nat := moreChannels + 1

/-- Free value: RESULT when STATUS ≠ OK (R31, R140), and RESULT[N−1:0] when the key changed during the
transaction (R47). Applied to `State.freeDraws`. DESIGN CHOICE (log 9), safe. -/
opaque freeResult : Nat → BitVec 128

/-- Free value: RWIDTH when STATUS ≠ OK (R32, R140). DESIGN CHOICE (log 9), safe. -/
opaque freeRwidth : Nat → BitVec 2

/-- Free value: RSGN when STATUS ≠ OK (R32, R140). DESIGN CHOICE (log 9), safe. -/
opaque freeRsgn : Nat → BitVec 1

/-- What a byte of a key view that the memory does not list reads as. DESIGN CHOICE (log 5), unsafe. -/
def unlistedByte : Byte := 0

end Sys2Proof.Config
end

