-- ==== Sys2Proof/Syntax.lean ====
section
/-! DEFINITION. The operations (R62), the request format (R61) and the response bundle (R30 to R32). -/

namespace Sys2Proof

/-- The five operations of spec/opcode_table.json, one constructor a row, as the decoder of R66 returns
them: the finalizers have no `signed` parameter (R63), the hashes carry CMD.SGN. The other operands are
request fields (R64) and stand in the request, not in the operation. -/
inductive Instr where
  /-- FMIX32, OP 0 (R81). -/
  | fmix32
  /-- FMIX64, OP 1 (R83). -/
  | fmix64
  /-- HASH32, OP 2 (R98). -/
  | hash32 (sgn : Bool)
  /-- HASH128X64, OP 3 (R118). -/
  | hash128x64 (sgn : Bool)
  /-- HASH, the dispatcher, OP 4 (R130). -/
  | hash (sgn : Bool)
  deriving DecidableEq, Repr

/-- A request (R61): the five fields of R24 to R28, and the name of its key view (R29). How key offsets
map to addresses of the host is outside the block (R40, R42), so the view is named by a plain number.
DESIGN CHOICE (log 4), safe. -/
structure Request where
  /-- The command word (R24, R60). -/
  cmd : W32
  /-- The finalizer operand (R25). -/
  arg : W64
  /-- The seed (R26). -/
  seed : W32
  /-- The dispatcher's `bit_width` (R27). -/
  width : W32
  /-- L, the key length in bytes (R28). -/
  klen : W32
  /-- Which key view the request names (R29). -/
  view : Nat
  deriving DecidableEq, Repr

/-- A response (R30 to R32), its fields as the bus carries them. -/
structure Response where
  /-- STATUS (R30). -/
  status : BitVec 2
  /-- RESULT (R31). -/
  result : W128
  /-- RWIDTH (R32). -/
  rwidth : BitVec 2
  /-- RSGN (R32). -/
  rsgn : BitVec 1
  deriving DecidableEq, Repr

/-- The outcomes of a transaction (R140); their codes are `Status.code`. -/
inductive Status where
  | ok
  | invalidWidth
  | illegalCommand
  | illegalOperand
  deriving DecidableEq, Repr

/-- The result widths N of R31; their RWIDTH codes are `ResultWidth.code`. -/
inductive ResultWidth where
  | w32
  | w64
  | w128
  deriving DecidableEq, Repr

/-- The legal dispatcher widths, the "tagged enumeration over {Width32, Width128}" of R133. -/
inductive HashWidth where
  | width32
  | width128
  deriving DecidableEq, Repr

/-- One line of assembler (R68), its operands read: one request. `signed` is the suffix `.s`; a seed that
is left out is `none` (R69). -/
inductive AsmLine where
  /-- `fmix32 ARG` -/
  | fmix32 (arg : W64)
  /-- `fmix64 ARG` -/
  | fmix64 (arg : W64)
  /-- `hash32 KEY, SEED` or `hash32.s KEY, SEED` -/
  | hash32 (signed : Bool) (key : List Byte) (seed : Option W32)
  /-- `hash128_x64 KEY, SEED` or `hash128_x64.s KEY, SEED` -/
  | hash128x64 (signed : Bool) (key : List Byte) (seed : Option W32)
  /-- `hash WIDTH, KEY, SEED` or `hash.s WIDTH, KEY, SEED` -/
  | hash (signed : Bool) (width : W32) (key : List Byte) (seed : Option W32)
  deriving DecidableEq, Repr

end Sys2Proof
end

