-- ==== Sys2Proof/WellFormed.lean ====
section
/-! DEFINITION. What is well formed: operations, command words, requests, and the canonical form of the
sparse tables in which the state holds channels and key bytes. -/

namespace Sys2Proof

/-- Every operation term is well formed: the only operand in an operation is SGN, and both of its values
are legal for the three hashes (R63); the finalizers carry none. -/
def Instr.wellFormed : Instr → Bool
  | .fmix32 => true
  | .fmix64 => true
  | .hash32 _ => true
  | .hash128x64 _ => true
  | .hash _ => true

/-- A legal command word, by the three clauses of R65: (a) OP is not 5, 6 or 7; (b) no bit of RSV is 1;
(c) a finalizer (OP 0 or 1) has SGN = 0. Written apart from the decoder of R66. -/
def cmdLegal (cmd : W32) : Bool :=
  decide (cmd.toNat % 8 < 5)
    && decide (cmd.toNat < 16)
    && !(decide (cmd.toNat % 8 < 2) && decide (cmd.toNat / 8 % 2 = 1))

/-- A request filled as R163 (2) asks: a legal CMD and, for FMIX32, ARG[63:32] = 0. -/
def Request.legal (r : Request) : Bool :=
  cmdLegal r.cmd && (decide (r.cmd.toNat % 8 ≠ 0) || decide (r.arg.toNat < 2 ^ 32))

/-- The keys of a sparse table rise strictly: no key twice, one order. -/
abbrev risingKeys {α : Type} (l : List (Nat × α)) : Prop :=
  l.Pairwise fun a b => a.1 < b.1

/-- The canonical form of memory: addresses strictly rising, and no entry equal to what an unlisted
address reads as. Equal memories are then equal lists. -/
abbrev Memory.wf (m : List Host.Cell) : Prop :=
  risingKeys m ∧ ∀ e ∈ m, e.2 ≠ Config.unlistedByte

end Sys2Proof
end

