-- ==== Sys2Proof/Decode.lean ====
section
/-! DEFINITION. Decoding and encoding of the command word (R60, R62, R65, R66). One fixed 32-bit format, no
prefixes and no compressed forms (R67). -/

namespace Sys2Proof

/-- CMD[2:0], the OP field (R60). -/
def cmdOp (cmd : W32) : BitVec 3 := cmd.extractLsb' 0 3

/-- CMD[3], the SGN field (R60, R63). -/
def cmdSgn (cmd : W32) : Bool := cmd.getLsbD 3

/-- CMD[31:4], the RSV field (R60). -/
def cmdRsv (cmd : W32) : BitVec 28 := cmd.extractLsb' 4 28

/-- Why a command word is illegal, the three clauses of R65. Each ends the transaction with
ILLEGAL_COMMAND. -/
inductive IllegalCmd where
  /-- R65 (b): a reserved bit is 1. -/
  | reservedBits
  /-- R65 (a): OP is 5, 6 or 7. -/
  | reservedOp
  /-- R65 (c): SGN = 1 on a finalizer. -/
  | signedFinalizer
  deriving DecidableEq, Repr

/-- The decoder of R66, total on every 32-bit word, its tests in the rule's order. -/
def decode (cmd : W32) : Except IllegalCmd Instr :=
  if cmdRsv cmd ≠ 0 then .error .reservedBits
  else
    match (cmdOp cmd).toNat with
    | 0 => if cmdSgn cmd then .error .signedFinalizer else .ok .fmix32
    | 1 => if cmdSgn cmd then .error .signedFinalizer else .ok .fmix64
    | 2 => .ok (.hash32 (cmdSgn cmd))
    | 3 => .ok (.hash128x64 (cmdSgn cmd))
    | 4 => .ok (.hash (cmdSgn cmd))
    | _ => .error .reservedOp

/-- The OP code of an operation (R62). -/
def Instr.op : Instr → BitVec 3
  | .fmix32 => 0
  | .fmix64 => 1
  | .hash32 _ => 2
  | .hash128x64 _ => 3
  | .hash _ => 4

/-- The SGN bit of an operation's command word (R63): 0 for the finalizers. -/
def Instr.sgn : Instr → Bool
  | .fmix32 => false
  | .fmix64 => false
  | .hash32 s => s
  | .hash128x64 s => s
  | .hash s => s

/-- The command word of an operation: RSV = 0, then SGN, then OP (R60). -/
def encode (i : Instr) : W32 :=
  ((0 : BitVec 28) ++ BitVec.ofBool i.sgn) ++ i.op

/-- The operation the decoder reads from an `nbits`-bit word whose bits are `w`, bit 0 the least
significant bit of CMD, as spec/opcode_table.json numbers it. CMD is a field of 32 bits, not bytes of a
memory, so it has no byte order (R52, log 20). A word with a bit above CMD[31] is no command word. -/
def decodeTableWord (nbits w : Nat) : Option Instr :=
  if w % 2 ^ nbits < 2 ^ 32 then (decode (BitVec.ofNat 32 (w % 2 ^ nbits))).toOption else none

end Sys2Proof
end

