-- ==== Sys2Proof/Machine/State.lean ====
section
/-! DEFINITION. The state (spec/10_state.md, 70_reset_and_hazards.md R160), its moves, and the reasons a step
can stop. The block itself keeps only the channel state (R20, R35); the rest of State is what its requesters
and the host hold: presented requests, delivered responses, key bytes, and the order in which the agents move. -/

namespace Sys2Proof.Machine

/-- Key bytes by address, sparse and canonical (`Memory.wf`). The only memory is the requests' key views
(R40); the block never writes it (R41). -/
abbrev Memory := List Host.Cell

/-- What a `Busy(req)` channel holds (R35): the accepted request, and whether a byte of its key view has
changed since it was issued (R47; DEDUCED, log 7). -/
structure Transaction where
  req : Request
  keyChanged : Bool
  deriving DecidableEq, Repr

/-- What one of the agents does next. The spec leaves the interleaving and the latency open (R36, R38, R167):
any list of moves may be the schedule (log 1). -/
inductive Move where
  /-- A requester presents a request on channel `c` (R35, R165). -/
  | present (c : Nat) (r : Request)
  /-- The block accepts the oldest request presented on channel `c`, if the channel is Idle (R35). -/
  | accept (c : Nat)
  /-- The block delivers the response of channel `c`'s transaction (R35, R37). -/
  | respond (c : Nat)
  /-- A host's write of byte `b` at `offset` of key view `view` becomes visible to the block (R47, R50; DESIGN CHOICE,
  log 8). -/
  | keyWrite (view : Nat) (offset : W32) (b : Byte)
  /-- Reset is asserted (R160, R161). -/
  | reset
  deriving DecidableEq, Repr

structure State where
  /-- The Busy channels, by channel number, rising; a channel that is not listed is Idle (R35). -/
  channels : List (Nat × Transaction)
  /-- Requests presented and not yet accepted, oldest first, each with its channel (R165; DEDUCED, log 10). -/
  waiting : List (Nat × Request)
  /-- Responses delivered, oldest first, each with its channel (R30 to R32). The requesters' side of the
  interface: no move of the block reads it (log 11). -/
  responses : List (Nat × Response)
  /-- The key bytes of every view (R29, R40), the host's own memory. -/
  mem : Memory
  /-- The moves to come (log 1). -/
  schedule : List Move
  /-- The channel whose operation is being carried out; none between steps. The model's own (log 12). -/
  serving : Option Nat
  /-- How many free values have been drawn. The model's own (log 9). -/
  freeDraws : Nat
  deriving DecidableEq, Repr

/-- The model's faults. An error of the spec is no fault: it is a response with a STATUS that is not OK
(R140), and the machine goes on. -/
inductive Fault where
  /-- An operation was to be carried out while no transaction is being served. Raised by the meanings
  through `State.current`; `step` never asks for one. The spec has no such case (R35): safe (log 12). -/
  | noTransaction
  deriving DecidableEq, Repr

/-- The model's refusals. -/
inductive Refusal where
  /-- An instruction that has no meaning yet. Raised by no arm of `exec` now. Safe. -/
  | notModelled (mnemonic : String)
  /-- A request presented on a channel number that is not below NCH: there is no such channel
  (R35: 0 ≤ c < NCH). Raised by `present`. Safe (log 2). -/
  | noSuchChannel
  deriving DecidableEq, Repr

/-- The machine right after reset (R160; 10_state.md section 7): every channel Idle, no request held, no
response pending, no transient accumulator. The key memory and the model's own fields are at the values
of log 6, log 1, log 12 and log 9. -/
def State.reset : State where
  channels := []
  waiting := []
  responses := []
  mem := []
  schedule := []
  serving := none
  freeDraws := 0

end Sys2Proof.Machine
end

