-- ==== Sys2Proof/Machine/Flags.lean ====
section
/-! DEFINITION. The block has no flags (R23): its only outcome indicator is the STATUS field, and a response
describes itself by its tags. This file holds the status codes (R30, R140), the tag codes (R32), the responses
built from them, and the integer a response stands for (R13, R33, R97). -/

namespace Sys2Proof.Machine

/-- The STATUS code of an outcome (R30, R140). -/
def statusCode : Status → BitVec 2
  | .ok => 0
  | .invalidWidth => 1
  | .illegalCommand => 2
  | .illegalOperand => 3

/-- The RWIDTH code of a result width (R32). -/
def widthCode : ResultWidth → BitVec 2
  | .w32 => 0
  | .w64 => 1
  | .w128 => 2

/-- The number of bits N of a result width (R31, R32). -/
def widthBits : ResultWidth → Nat
  | .w32 => 32
  | .w64 => 64
  | .w128 => 128

/-- The result width a tag names (R32); the value 3 is never produced and names none. -/
def widthOfCode (c : BitVec 2) : Option ResultWidth :=
  match c.toNat with
  | 0 => some .w32
  | 1 => some .w64
  | 2 => some .w128
  | _ => none

/-- The response of an operation that completes with the result word `r` of width `w`: STATUS = OK,
RESULT = zext_128(r), RWIDTH the code of the width, RSGN the request's SGN (R31, R32). -/
def okResponse {n : Nat} (w : ResultWidth) (r : BitVec n) (sgn : Bool) : Response where
  status := statusCode .ok
  result := r.setWidth 128
  rwidth := widthCode w
  rsgn := BitVec.ofBool sgn

/-- The response of an error: its STATUS code, and RESULT, RWIDTH and RSGN at any value (R31, R140), drawn
as free value number `d` (log 9). -/
def errorResponse (e : Status) (d : Nat) : Response where
  status := statusCode e
  result := Config.freeResult d
  rwidth := Config.freeRwidth d
  rsgn := Config.freeRsgn d

/-- toUnsigned_N of the low `n` bits of RESULT (R13). -/
def toUnsigned (n : Nat) (result : W128) : Int := ((result.setWidth n).toNat : Int)

/-- toSigned_N of the low `n` bits of RESULT, as R13 defines it: nat(v) when v[N−1] = 0, else
nat(v) − 2^N. -/
def toSigned (n : Nat) (result : W128) : Int :=
  let v := result.setWidth n
  if v.getLsbD (n - 1) then (v.toNat : Int) - 2 ^ n else (v.toNat : Int)

/-- The integer a response stands for (R33): none unless STATUS = OK, and none for the tag 3, which an OK
response never carries (log 19). -/
def responseValue (p : Response) : Option Int :=
  if p.status = statusCode .ok then
    (widthOfCode p.rwidth).map fun w =>
      if p.rsgn = 1 then toSigned (widthBits w) p.result else toUnsigned (widthBits w) p.result
  else none

end Sys2Proof.Machine
end

