-- ==== Sys2Proof/Machine/Operands.lean ====
section
/-! DEFINITION. Operand assembly (R64): what each operation takes from the request fields. There are no
immediates; a field an operation does not read never enters its response. -/

namespace Sys2Proof.Machine

/-- The operand of FMIX32: h = ARG[31:0] (R25, R64). -/
def operandFmix32 (r : Request) : W32 := r.arg.extractLsb' 0 32

/-- ARG[63:32], which must be 0 for FMIX32 (R25, R65). -/
def argHigh (r : Request) : W32 := r.arg.extractLsb' 32 32

/-- The operand of FMIX64: h = ARG[63:0] (R25, R64). -/
def operandFmix64 (r : Request) : W64 := r.arg

/-- L, the number of bytes in the key (R28, R64). -/
def keyLength (r : Request) : Nat := r.klen.toNat

/-- The dispatcher's single validation point (R130, R133): all 32 bits of WIDTH are compared, nothing is
truncated or masked (R27). -/
def hashWidth (r : Request) : Option HashWidth :=
  if r.width = 32 then some .width32
  else if r.width = 128 then some .width128
  else none

end Sys2Proof.Machine
end

