-- ==== Sys2Proof/Machine/Ops.lean ====
section
/-! DEFINITION. The operations the meanings share: sparse tables, key memory, key words, rotation, and the two ways a
transaction ends, `return` and `raise` (R15, R140). `raise` is the whole of the spec's error taking: no
state is saved, no mode changes, no control is transferred (R145), and there is no return from it (R146). -/

namespace Sys2Proof.Machine

/-! ### Sparse tables: lists of key and value with rising keys -/

/-- The value a table holds at key `k`. -/
def tableGet {α : Type} (k : Nat) : List (Nat × α) → Option α
  | [] => none
  | (j, v) :: l => if j = k then some v else tableGet k l

/-- The table with key `k` at value `v`. -/
def tableSet {α : Type} (k : Nat) (v : α) : List (Nat × α) → List (Nat × α)
  | [] => [(k, v)]
  | (j, w) :: l =>
    if k < j then (k, v) :: (j, w) :: l
    else if k = j then (k, v) :: l
    else (j, w) :: tableSet k v l

/-- The table without key `k`. -/
def tableErase {α : Type} (k : Nat) (l : List (Nat × α)) : List (Nat × α) :=
  l.filter fun e => e.1 != k

/-! ### Key memory (R40 to R46) -/

/-- Where the byte at `offset` of key view `view` stands in the model's memory. Offsets are 32-bit
numbers (R40), so each view has 2^32 places of its own. The model's own naming (log 4). -/
def keyAddr (view offset : Nat) : Nat := view * 2 ^ 32 + offset

/-- The byte at an address. -/
def Memory.read (m : Memory) (a : Nat) : Byte := (tableGet a m).getD Config.unlistedByte

/-- The memory with byte `b` at an address, in canonical form again. Only the host writes (R41). -/
def Memory.write (m : Memory) (a : Nat) (b : Byte) : Memory :=
  if b = Config.unlistedByte then tableErase a m else tableSet a b m

/-- KeyByte(i) of a request's key view (R14, R40). The operations read it only at offsets below L. -/
def keyByte (m : Memory) (r : Request) (i : Nat) : Byte := m.read (keyAddr r.view i)

/-- Σ over j < n of KeyByte(i + j) · 2^(8j), the sum of R14. -/
def memReadNat (K : Nat → Byte) (i : Nat) : Nat → Nat
  | 0 => 0
  | n + 1 => memReadNat K i n + (K (i + n)).toNat * 2 ^ (8 * n)

/-- MemRead(i, 4): a 32-bit word, little-endian (R14, R43, R44). -/
def memRead32 (K : Nat → Byte) (i : Nat) : W32 := BitVec.ofNat 32 (memReadNat K i 4)

/-- MemRead(i, 8): a 64-bit word, little-endian (R14, R43, R44). -/
def memRead64 (K : Nat → Byte) (i : Nat) : W64 := BitVec.ofNat 64 (memReadNat K i 8)

/-- The tail packing of R94 and R114: bytes `base .. base + n − 1` at shifts 0, 8, 16 and so on, each
or-ed in, in that order. -/
def packTail (w : Nat) (K : Nat → Byte) (base : Nat) : Nat → BitVec w
  | 0 => 0
  | n + 1 => packTail w K base n ||| ((K (base + n)).setWidth w <<< (8 * n))

/-- Rotation to the left (R11), for 0 < r < w. -/
def rotl {w : Nat} (x : BitVec w) (r : Nat) : BitVec w := (x <<< r) ||| (x >>> (w - r))

/-! ### Transactions -/

/-- The transaction being served, if any. -/
def State.current (s : State) : Option Transaction :=
  s.serving.bind fun c => tableGet c s.channels

/-- The state in which the response `p` has been delivered on channel `c` and the channel is Idle again
(R35). Nothing of the transaction is kept (R20, R41). -/
def State.answer (s : State) (c : Nat) (p : Response) : State :=
  { s with
    channels := tableErase c s.channels
    responses := s.responses ++ [(c, p)]
    serving := none }

/-- The state after a free value has been drawn (log 9). -/
def State.drawn (s : State) : State := { s with freeDraws := s.freeDraws + 1 }

/-- Delivers a response on the channel being served. -/
def deliver (p : Response) (s : State) : Host.Outcome State Fault Refusal :=
  match s.serving with
  | none => .fault .noTransaction
  | some c => .next (s.answer c p)

/-- `return r` (R15) of an operation that reads no key byte: STATUS = OK and the result word on the bus. -/
def returnWord {n : Nat} (w : ResultWidth) (r : BitVec n) (sgn : Bool) (s : State) :
    Host.Outcome State Fault Refusal :=
  deliver (okResponse w r sgn) s

/-- `return r` of an operation that reads the key. If the key changed during the transaction,
RESULT[N−1:0] is any value, and STATUS, RWIDTH, RSGN and the bits above N−1 are as always (R47). -/
def returnKeyed {n : Nat} (w : ResultWidth) (r : BitVec n) (sgn : Bool) (t : Transaction) (s : State) :
    Host.Outcome State Fault Refusal :=
  if t.keyChanged then
    deliver (okResponse w ((Config.freeResult s.freeDraws).setWidth n) sgn) s.drawn
  else
    deliver (okResponse w r sgn) s

/-- `raise E` (R15, R140): the transaction ends with STATUS = E, and RESULT, RWIDTH and RSGN hold any
value. Nothing else changes (R142, R145). -/
def raise (e : Status) (s : State) : Host.Outcome State Fault Refusal :=
  deliver (errorResponse e s.freeDraws) s.drawn

/-- The end of a transaction whose command word is illegal, for whichever clause of R65:
ILLEGAL_COMMAND, no other field read. -/
def raiseIllegalCommand (_ : IllegalCmd) (s : State) : Host.Outcome State Fault Refusal :=
  raise .illegalCommand s

end Sys2Proof.Machine
end

