-- ==== Sys2Proof/Machine/Channels.lean ====
section
/-! DEFINITION. The transaction protocol (R35, R36, R165, R47, R160, R161): what each move does, but for the
operation itself, and which move comes next. -/

namespace Sys2Proof.Machine

/-- A request is presented (R35, R165): it joins the requests waiting on its channel, whether the channel
is Idle or Busy. There is no channel from NCH on. -/
def present (c : Nat) (r : Request) (s : State) : Host.Outcome State Fault Refusal :=
  if c < Config.nch then .next { s with waiting := s.waiting ++ [(c, r)] }
  else .refused .noSuchChannel

/-- The oldest request waiting on channel `c`, and the others. -/
def takeFirst (c : Nat) : List (Nat × Request) → Option (Request × List (Nat × Request))
  | [] => none
  | (d, r) :: l =>
    if d = c then some (r, l)
    else (takeFirst c l).map fun x => (x.1, (d, r) :: x.2)

/-- The block accepts the oldest request waiting on channel `c`; its key is stable so far (R35, R47). While
the channel is Busy the request is held (R165), and with none waiting there is nothing to accept: the
move then changes nothing. -/
def accept (c : Nat) (s : State) : State :=
  match tableGet c s.channels with
  | some _ => s
  | none =>
    match takeFirst c s.waiting with
    | none => s
    | some (r, rest) =>
      { s with channels := tableSet c { req := r, keyChanged := false } s.channels, waiting := rest }

/-- Whether a write at `offset` of `view` falls into a request's key view, offsets 0..L−1 (R40, R47). -/
def inKeyView (view : Nat) (offset : W32) (r : Request) : Bool :=
  decide (r.view = view) && decide (offset.toNat < keyLength r)

/-- A transaction after a write at `offset` of `view` that does or does not change the byte: its key has
changed if it had before, or if the byte changed and lies in its key view (R47, log 7). -/
def markKeyChange (view : Nat) (offset : W32) (changes : Bool) (t : Transaction) : Transaction :=
  { t with keyChanged := t.keyChanged || (changes && inKeyView view offset t.req) }

/-- A host's write becomes visible (R47, R50): the byte changes, and the transactions in progress whose key
view holds it are marked, unless the byte had that value already (log 7). -/
def keyWrite (view : Nat) (offset : W32) (b : Byte) (s : State) : State :=
  let a := keyAddr view offset.toNat
  { s with
    mem := s.mem.write a b
    channels := s.channels.map fun e =>
      (e.1, markKeyChange view offset (decide (s.mem.read a ≠ b)) e.2) }

/-- Reset (R160, R161): every channel Idle, no request held, the transactions in progress abandoned
without a response. What was delivered stays delivered, and the host's memory is not the block's (log 13). -/
def resetBlock (s : State) : State :=
  { s with channels := [], waiting := [], serving := none }

/-- The next move: the schedule's first; with no schedule left, the block answers what it has accepted,
then accepts what waits (R38, log 1). None when there is nothing to do. -/
def nextMove (s : State) : Option Move :=
  match s.schedule with
  | m :: _ => some m
  | [] =>
    match s.channels with
    | (c, _) :: _ => some (.respond c)
    | [] =>
      match s.waiting with
      | (c, _) :: _ => some (.accept c)
      | [] => none

/-- The state once the schedule's first move is taken off it. -/
def State.pop (s : State) : State := { s with schedule := s.schedule.tail }

/-- The state in which channel `c`'s operation is about to be carried out. -/
def State.serve (s : State) (c : Nat) : State := { s with serving := some c }

/-- A request with every field 0, as the assembler leaves the fields an operation does not read
(R69; DEDUCED, log 16). -/
def blankRequest : Request where
  cmd := 0
  arg := 0
  seed := 0
  width := 0
  klen := 0
  view := 0

/-- The transaction of channel `c` with the command word `w`: the one in progress there with its CMD
replaced, or a blank one if the channel is Idle. -/
def placeCommand (c : Nat) (w : W32) (s : State) : State :=
  let t := (tableGet c s.channels).getD { req := blankRequest, keyChanged := false }
  { s with channels := tableSet c { t with req := { t.req with cmd := w } } s.channels }

end Sys2Proof.Machine
end

