-- ==== Sys2Proof/Machine/Finalizers.lean ====
section
/-! DEFINITION. The finalizers (spec/40_finalizers.md): fmix32, fmix64 and the operations FMIX32, FMIX64. -/

namespace Sys2Proof.Machine

/-- fmix32 (R80). Shifts are logical, products wrap modulo 2^32. -/
def fmix32 (h : W32) : W32 :=
  let h := h ^^^ (h >>> 16)
  let h := h * 0x85ebca6b
  let h := h ^^^ (h >>> 13)
  let h := h * 0xc2b2ae35
  h ^^^ (h >>> 16)

/-- fmix64 (R82). -/
def fmix64 (h : W64) : W64 :=
  let h := h ^^^ (h >>> 33)
  let h := h * 0xff51afd7ed558ccd
  let h := h ^^^ (h >>> 33)
  let h := h * 0xc4ceb9fe1a85ec53
  h ^^^ (h >>> 33)

/-- Operation FMIX32 (R81): ILLEGAL_OPERAND unless ARG[63:32] = 0, else fmix32 of ARG[31:0]. -/
def execFmix32 (s : State) : Host.Outcome State Fault Refusal :=
  match s.current with
  | none => .fault .noTransaction
  | some t =>
    if argHigh t.req ≠ 0 then raise .illegalOperand s
    else returnWord .w32 (fmix32 (operandFmix32 t.req)) false s

/-- Operation FMIX64 (R83). -/
def execFmix64 (s : State) : Host.Outcome State Fault Refusal :=
  match s.current with
  | none => .fault .noTransaction
  | some t => returnWord .w64 (fmix64 (operandFmix64 t.req)) false s

end Sys2Proof.Machine
end

