-- ==== Sys2Proof/Machine/Hash128.lean ====
section
/-! DEFINITION. HASH128X64, MurmurHash3_x64_128 (spec/42_hash128x64.md). The two lanes h1, h2 of R34 are a
pair of local values. -/

namespace Sys2Proof.Machine

/-- The two accumulator lanes of HASH128X64 (R34, R110). -/
abbrev Lanes := W64 × W64

/-- c1 of R110. -/
def c1x64 : W64 := 0x87c37b91114253d5

/-- c2 of R110. -/
def c2x64 : W64 := 0x4cf5ad432745937f

/-- mixK1_64 (R111). -/
def mixK1x64 (k : W64) : W64 := rotl (k * c1x64) 31 * c2x64

/-- mixK2_64 (R111). -/
def mixK2x64 (k : W64) : W64 := rotl (k * c2x64) 33 * c1x64

/-- The block step (R112): h2's combine reads the h1 just written. -/
def block64 (h : Lanes) (k1 k2 : W64) : Lanes :=
  let h1 := (rotl (h.1 ^^^ mixK1x64 k1) 27 + h.2) * 5 + 0x52dce729
  let h2 := (h1 + rotl (h.2 ^^^ mixK2x64 k2) 31) * 5 + 0x38495ab5
  (h1, h2)

/-- The block loop over the first `n` blocks, in key order (R113). -/
def blocks64 (K : Nat → Byte) (h : Lanes) : Nat → Lanes
  | 0 => h
  | n + 1 => block64 (blocks64 K h n) (memRead64 K (16 * n)) (memRead64 K (16 * n + 8))

/-- The tail of `t` bytes at `base` (R114, C1, C3): bytes 8..t−1 into h2, bytes 0..min(t,8)−1 into h1,
each lane with its own mix, each only if there are such bytes. -/
def tail64 (K : Nat → Byte) (base t : Nat) (h : Lanes) : Lanes :=
  let h2 := if 8 < t then h.2 ^^^ mixK2x64 (packTail 64 K (base + 8) (t - 8)) else h.2
  let h1 := if 0 < t then h.1 ^^^ mixK1x64 (packTail 64 K base (min t 8)) else h.1
  (h1, h2)

/-- h1 <- h1 + h2, then h2 <- h2 + h1, which reads the h1 just written (R115). -/
def crossAdd (h : Lanes) : Lanes := (h.1 + h.2, h.2 + (h.1 + h.2))

/-- The finalization with the length (R115). -/
def finish64 (len : W64) (h : Lanes) : Lanes :=
  let h := crossAdd (h.1 ^^^ len, h.2 ^^^ len)
  crossAdd (fmix64 h.1, fmix64 h.2)

/-- hash128_x64 (R117): both lanes start at the zero-extended seed (R110), and the result is
concat(h2, h1) (R116). -/
def hash128x64 (K : Nat → Byte) (L : Nat) (seed : W32) : W128 :=
  let h := blocks64 K (seed.setWidth 64, seed.setWidth 64) (L / 16)
  let h := tail64 K (16 * (L / 16)) (L % 16) h
  let h := finish64 ((BitVec.ofNat 32 L).setWidth 64) h
  h.2 ++ h.1

/-- Operation HASH128X64 (R118). -/
def execHash128x64 (sgn : Bool) (s : State) : Host.Outcome State Fault Refusal :=
  match s.current with
  | none => .fault .noTransaction
  | some t =>
    returnKeyed .w128 (hash128x64 (keyByte s.mem t.req) (keyLength t.req) t.req.seed) sgn t s

end Sys2Proof.Machine
end

