-- ==== Sys2Proof/Machine/Hash32.lean ====
section
/-! DEFINITION. HASH32, MurmurHash3_x86_32 (spec/41_hash32.md). A key is given by its bytes `K` and its
length `L`; the accumulator h1 and the word k1 of R34 are local values. -/

namespace Sys2Proof.Machine

/-- c1 of R90. -/
def c1x32 : W32 := 0xcc9e2d51

/-- c2 of R90. -/
def c2x32 : W32 := 0x1b873593

/-- mixK32 (R91). -/
def mixK32 (k : W32) : W32 := rotl (k * c1x32) 15 * c2x32

/-- The block step (R92). -/
def block32 (h1 k1 : W32) : W32 := rotl (h1 ^^^ mixK32 k1) 13 * 5 + 0xe6546b64

/-- The block loop over the first `n` blocks, in key order (R93). -/
def blocks32 (K : Nat → Byte) (h1 : W32) : Nat → W32
  | 0 => h1
  | n + 1 => block32 (blocks32 K h1 n) (memRead32 K (4 * n))

/-- The tail of `t` bytes at `base` (R94): mixed and folded into h1 only if there is one. -/
def tail32 (K : Nat → Byte) (base t : Nat) (h1 : W32) : W32 :=
  if 0 < t then h1 ^^^ mixK32 (packTail 32 K base t) else h1

/-- hash32 (R96): blocks, tail, and the finalization with the length (R95). -/
def hash32 (K : Nat → Byte) (L : Nat) (seed : W32) : W32 :=
  fmix32 (tail32 K (4 * (L / 4)) (L % 4) (blocks32 K seed (L / 4)) ^^^ BitVec.ofNat 32 L)

/-- Operation HASH32 (R98). -/
def execHash32 (sgn : Bool) (s : State) : Host.Outcome State Fault Refusal :=
  match s.current with
  | none => .fault .noTransaction
  | some t =>
    returnKeyed .w32 (hash32 (keyByte s.mem t.req) (keyLength t.req) t.req.seed) sgn t s

end Sys2Proof.Machine
end

