-- ==== Sys2Proof/Machine/Dispatcher.lean ====
section
/-! DEFINITION. HASH, the dispatcher (spec/43_dispatcher.md). -/

namespace Sys2Proof.Machine

/-- Operation HASH (R130): WIDTH selects the hash; any other width is INVALID_WIDTH, and then no key byte
is read (R132). -/
def execHash (sgn : Bool) (s : State) : Host.Outcome State Fault Refusal :=
  match s.current with
  | none => .fault .noTransaction
  | some t =>
    match hashWidth t.req with
    | some .width32 =>
      returnKeyed .w32 (hash32 (keyByte s.mem t.req) (keyLength t.req) t.req.seed) sgn t s
    | some .width128 =>
      returnKeyed .w128 (hash128x64 (keyByte s.mem t.req) (keyLength t.req) t.req.seed) sgn t s
    | none => raise .invalidWidth s

end Sys2Proof.Machine
end

