-- ==== Sys2Proof/Machine/Dispatch.lean ====
section
/-! DEFINITION. What each operation does, one arm per constructor of Instr (R37). -/

namespace Sys2Proof.Machine

def exec (i : Instr) (s : State) : Host.Outcome State Fault Refusal :=
  match i with
  | .fmix32 => Sys2Proof.Machine.execFmix32 s
  | .fmix64 => Sys2Proof.Machine.execFmix64 s
  | .hash32 sgn => Sys2Proof.Machine.execHash32 sgn s
  | .hash128x64 sgn => Sys2Proof.Machine.execHash128x64 sgn s
  | .hash sgn => Sys2Proof.Machine.execHash sgn s

end Sys2Proof.Machine
end

