-- ==== Sys2Proof/Machine/Step.lean ====
section
/-! DEFINITION. One step: one move of one agent. The block has no program counter (R22): an operation is
carried out when its transaction is answered (log 3), and its command word stands in the request (R52). -/

namespace Sys2Proof.Machine

/-- The response of channel `c` (R37): decode CMD, then carry out the operation, or end with
ILLEGAL_COMMAND (R144). On an Idle channel there is nothing to answer. -/
def respond (c : Nat) (s : State) : Host.Outcome State Fault Refusal :=
  match tableGet c s.channels with
  | none => .next s
  | some t =>
    match decode t.req.cmd with
    | .ok i => exec i (s.serve c)
    | .error e => raiseIllegalCommand e (s.serve c)

/-- What a move does. -/
def doMove (m : Move) (s : State) : Host.Outcome State Fault Refusal :=
  match m with
  | .present c r => present c r s
  | .accept c => .next (accept c s)
  | .respond c => respond c s
  | .keyWrite view offset b => .next (keyWrite view offset b s)
  | .reset => .next (resetBlock s)

/-- One step: the next move, or nothing when there is nothing to do. -/
def step (s : State) : Host.Outcome State Fault Refusal :=
  match nextMove s with
  | none => .next s
  | some m => doMove m s.pop

/-- The state whose next step carries out the command word `w` (its low `nbits` bits) on channel 0, which
exists because NCH ≥ 1: the word is stored in that channel's request and its response is the next move
(log 14). -/
def State.withFetchWord (s : State) (nbits w : Nat) : State :=
  { placeCommand 0 (BitVec.ofNat 32 (w % 2 ^ nbits)) s with schedule := .respond 0 :: s.schedule }

end Sys2Proof.Machine
end

