-- ==== Sys2Proof/Machine/Assembler.lean ====
section
/-! DEFINITION. The assembler of R68 and R69: the text of a line, the request it stands for, and the moves by
which a requester issues it (R163). What the rules leave open of the text (spaces, the case of hexadecimal
digits) is settled in log 18. -/

namespace Sys2Proof.Machine

/-! ### From a line to a request (R68, R69) -/

/-- The operation of a line; `hash 32` stays HASH, it is not rewritten to HASH32 (R69). -/
def asmInstr : AsmLine → Instr
  | .fmix32 _ => .fmix32
  | .fmix64 _ => .fmix64
  | .hash32 sgn _ _ => .hash32 sgn
  | .hash128x64 sgn _ _ => .hash128x64 sgn
  | .hash sgn _ _ _ => .hash sgn

/-- The key bytes of a line; a finalizer has none. -/
def asmKey : AsmLine → List Byte
  | .fmix32 _ => []
  | .fmix64 _ => []
  | .hash32 _ key _ => key
  | .hash128x64 _ key _ => key
  | .hash _ _ key _ => key

/-- The ARG field of a line; 0 where the operation does not read it (R69). -/
def asmArg : AsmLine → W64
  | .fmix32 arg => arg
  | .fmix64 arg => arg
  | .hash32 _ _ _ => 0
  | .hash128x64 _ _ _ => 0
  | .hash _ _ _ _ => 0

/-- The SEED field of a line: an omitted seed is 0 (R69). -/
def asmSeed : AsmLine → W32
  | .fmix32 _ => 0
  | .fmix64 _ => 0
  | .hash32 _ _ seed => seed.getD 0
  | .hash128x64 _ _ seed => seed.getD 0
  | .hash _ _ _ seed => seed.getD 0

/-- The WIDTH field of a line; 0 where the operation does not read it (R69). -/
def asmWidth : AsmLine → W32
  | .fmix32 _ => 0
  | .fmix64 _ => 0
  | .hash32 _ _ _ => 0
  | .hash128x64 _ _ _ => 0
  | .hash _ width _ _ => width

/-- The request of a line whose key is put into key view `v`. KLEN is the number of key bytes (R68); a key
of 2^32 bytes or more fits no request (R7, R28). -/
def assemble (v : Nat) (l : AsmLine) : Option Request :=
  if (asmKey l).length < 2 ^ 32 then
    some
      { cmd := encode (asmInstr l)
        arg := asmArg l
        seed := asmSeed l
        width := asmWidth l
        klen := BitVec.ofNat 32 (asmKey l).length
        view := v }
  else none

/-- The writes that put a key into view `v`, byte `i` onwards. -/
def keyWrites (v : Nat) : Nat → List Byte → List Move
  | _, [] => []
  | i, b :: bs => .keyWrite v (BitVec.ofNat 32 i) b :: keyWrites v (i + 1) bs

/-- One request from first to last, in the order of R163: the key is written and visible, the request is
presented and accepted, and its response is delivered. -/
def asmMoves (c v : Nat) (l : AsmLine) : Option (List Move) :=
  (assemble v l).map fun r => keyWrites v 0 (asmKey l) ++ [.present c r, .accept c, .respond c]

/-! ### From text to a line (R68) -/

/-- The value of a digit character in a base, if it is one. -/
def digitValue (base : Nat) (ch : Char) : Option Nat :=
  let n := ch.toNat
  let v :=
    if 48 ≤ n ∧ n ≤ 57 then n - 48
    else if 97 ≤ n ∧ n ≤ 102 then n - 87
    else if 65 ≤ n ∧ n ≤ 70 then n - 55
    else base
  if v < base then some v else none

/-- The number a digit string spells, given what the digits before it spell. -/
def digitsValue (base : Nat) : Nat → List Char → Option Nat
  | acc, [] => some acc
  | acc, ch :: cs => (digitValue base ch).bind fun d => digitsValue base (acc * base + d) cs

/-- An unsigned integer literal, decimal or hexadecimal with `0x`. -/
def parseNumber : List Char → Option Nat
  | [] => none
  | ['0', 'x'] => none
  | '0' :: 'x' :: cs => digitsValue 16 0 cs
  | cs => digitsValue 10 0 cs

/-- A literal that fits a field of `w` bits. A larger one is refused, never cut down (DEDUCED, log 17). -/
def parseField (w : Nat) (cs : List Char) : Option (BitVec w) :=
  (parseNumber cs).bind fun n => if n < 2 ^ w then some (BitVec.ofNat w n) else none

/-- The bytes of a text up to its closing quote, one byte per ASCII character. -/
def parseText : List Char → Option (List Byte)
  | ['"'] => some []
  | [] => none
  | ch :: cs =>
    if ch.toNat < 128 ∧ ch ≠ '"' then (parseText cs).map (BitVec.ofNat 8 ch.toNat :: ·) else none

/-- Hexadecimal bytes up to the closing quote, two digits per byte, in key order. -/
def parseHexBytes : List Char → Option (List Byte)
  | ['"'] => some []
  | a :: b :: cs =>
    match digitValue 16 a, digitValue 16 b with
    | some x, some y => (parseHexBytes cs).map (BitVec.ofNat 8 (16 * x + y) :: ·)
    | _, _ => none
  | _ => none

/-- A KEY operand: `"text"` or `x"hex"`. -/
def parseKey : List Char → Option (List Byte)
  | '"' :: cs => parseText cs
  | 'x' :: '"' :: cs => parseHexBytes cs
  | _ => none

/-- A text without the spaces at its two ends. -/
def trimSpaces (cs : List Char) : List Char :=
  ((cs.dropWhile (· == ' ')).reverse.dropWhile (· == ' ')).reverse

/-- The operands between commas that stand outside quotes. -/
def splitOperands (inQuotes : Bool) (now : List Char) : List Char → List (List Char)
  | [] => [trimSpaces now.reverse]
  | ch :: cs =>
    if ch == '"' then splitOperands (!inQuotes) (ch :: now) cs
    else if ch == ',' && !inQuotes then trimSpaces now.reverse :: splitOperands false [] cs
    else splitOperands inQuotes (ch :: now) cs

/-- A KEY and an optional SEED (R69). -/
def parseKeySeed : List (List Char) → Option (List Byte × Option W32)
  | [k] => (parseKey k).map fun key => (key, none)
  | [k, s] =>
    match parseKey k, parseField 32 s with
    | some key, some seed => some (key, some seed)
    | _, _ => none
  | _ => none

/-- The operand of a finalizer. -/
def parseArg : List (List Char) → Option W64
  | [a] => parseField 64 a
  | _ => none

/-- The operands of the dispatcher. -/
def parseWidthKeySeed : List (List Char) → Option (W32 × List Byte × Option W32)
  | w :: rest =>
    match parseField 32 w, parseKeySeed rest with
    | some width, some (key, seed) => some (width, key, seed)
    | _, _ => none
  | [] => none

/-- The operation a mnemonic of R68 names, its suffix `.s` read as SGN = 1; none for any other word. -/
def parseMnemonic (word : List Char) : Option Instr :=
  if word = ['f', 'm', 'i', 'x', '3', '2'] then some .fmix32
  else if word = ['f', 'm', 'i', 'x', '6', '4'] then some .fmix64
  else if word = ['h', 'a', 's', 'h', '3', '2'] then some (.hash32 false)
  else if word = ['h', 'a', 's', 'h', '3', '2', '.', 's'] then some (.hash32 true)
  else if word = ['h', 'a', 's', 'h', '1', '2', '8', '_', 'x', '6', '4'] then some (.hash128x64 false)
  else if word = ['h', 'a', 's', 'h', '1', '2', '8', '_', 'x', '6', '4', '.', 's'] then
    some (.hash128x64 true)
  else if word = ['h', 'a', 's', 'h'] then some (.hash false)
  else if word = ['h', 'a', 's', 'h', '.', 's'] then some (.hash true)
  else none

/-- A line of text (R68): the mnemonic, then the operands separated by commas. -/
def parseLine (cs : List Char) : Option AsmLine :=
  let cs := trimSpaces cs
  let word := cs.takeWhile (· != ' ')
  let operands := splitOperands false [] (cs.dropWhile (· != ' '))
  match parseMnemonic word with
  | none => none
  | some .fmix32 => (parseArg operands).map .fmix32
  | some .fmix64 => (parseArg operands).map .fmix64
  | some (.hash32 sgn) => (parseKeySeed operands).map fun x => .hash32 sgn x.1 x.2
  | some (.hash128x64 sgn) => (parseKeySeed operands).map fun x => .hash128x64 sgn x.1 x.2
  | some (.hash sgn) => (parseWidthKeySeed operands).map fun x => .hash sgn x.1 x.2.1 x.2.2

end Sys2Proof.Machine
end

