-- ==== Sys2Proof/Machine/Reference.lean ====
section
/-! DEFINITION. The two hashes a second time, as functions of a list of bytes that is cut into blocks and a
tail, the source's "raw bytes + seed → block loop → tail fold → finalize" (R3). They share
no reading of the key with Hash32.lean and Hash128.lean; statements compare the two. Before them stands the arithmetic of
words once more, in natural numbers. -/

namespace Sys2Proof.Machine

/-! ### Word arithmetic in natural numbers (R9, R10, R11) -/

/-- `x ^ (x >> s)` of a word with value `x`. -/
def natXorShift (s x : Nat) : Nat := x ^^^ x / 2 ^ s

/-- `x * c` modulo 2^w. -/
def natMul (w c x : Nat) : Nat := x * c % 2 ^ w

/-- A rotation to the left by `r` of a word of `w` bits. -/
def natRotl (w r x : Nat) : Nat := x * 2 ^ r % 2 ^ w + x / 2 ^ (w - r)

/-- `x * 5 + c` modulo 2^w. -/
def natMulAdd5 (w c x : Nat) : Nat := (x * 5 + c) % 2 ^ w

/-! ### The hashes on lists of bytes -/

/-- The little-endian word of a list of bytes: the first byte is the least significant (R43). -/
def leWord (w : Nat) (bs : List Byte) : BitVec w :=
  bs.foldr (fun b acc => b.setWidth w ||| acc <<< 8) 0

/-- A list cut into its full blocks of `n` bytes, in order (R90, R110). -/
def fullBlocks (n : Nat) (bs : List Byte) : List (List Byte) :=
  (List.range (bs.length / n)).map fun i => (bs.drop (n * i)).take n

/-- The bytes after the last full block of `n` bytes (R94, R114). -/
def tailBytes (n : Nat) (bs : List Byte) : List Byte := bs.drop (n * (bs.length / n))

/-- The tail of HASH32 (R94): folded into h1 only if there is one. -/
def foldTail32 (tail : List Byte) (h1 : W32) : W32 :=
  if tail.isEmpty then h1 else h1 ^^^ mixK32 (leWord 32 tail)

/-- MurmurHash3_x86_32 of a list of bytes (R96). -/
def digest32 (bs : List Byte) (seed : W32) : W32 :=
  let h1 := (fullBlocks 4 bs).foldl (fun h block => block32 h (leWord 32 block)) seed
  fmix32 (foldTail32 (tailBytes 4 bs) h1 ^^^ BitVec.ofNat 32 bs.length)

/-- The tail of HASH128X64 (R114): its first 8 bytes into h1, what is beyond them into h2. -/
def foldTail64 (tail : List Byte) (h : Lanes) : Lanes :=
  (if tail.isEmpty then h.1 else h.1 ^^^ mixK1x64 (leWord 64 (tail.take 8)),
   if (tail.drop 8).isEmpty then h.2 else h.2 ^^^ mixK2x64 (leWord 64 (tail.drop 8)))

/-- MurmurHash3_x64_128 of a list of bytes, as `(h2, h1)` (R116, R117). -/
def digest128 (bs : List Byte) (seed : W32) : W64 × W64 :=
  let h := (fullBlocks 16 bs).foldl
    (fun h block => block64 h (leWord 64 (block.take 8)) (leWord 64 (block.drop 8)))
    (seed.setWidth 64, seed.setWidth 64)
  let h := finish64 (BitVec.ofNat 64 bs.length) (foldTail64 (tailBytes 16 bs) h)
  (h.2, h.1)

/-- The key bytes of a request as a list (R40). -/
def keyList (m : Memory) (r : Request) : List Byte :=
  (List.range r.klen.toNat).map (keyByte m r)

end Sys2Proof.Machine
end

