-- ==== Sys2Proof/Machine/Respond.lean ====
section
/-! DEFINITION. The response function of R37 as one pure function of the request and the key bytes, apart from the
machine that delivers it, and which responses it admits. -/

namespace Sys2Proof.Machine

/-- `Respond(req, K)` (R37): the response of a transaction that completes, or the STATUS of one that does
not, with the checks in the order of R144. -/
def respondTo (r : Request) (K : Nat → Byte) : Except Status Response :=
  match decode r.cmd with
  | .error _ => .error .illegalCommand
  | .ok .fmix32 =>
    if r.arg.toNat < 2 ^ 32 then .ok (okResponse .w32 (fmix32 (r.arg.setWidth 32)) false)
    else .error .illegalOperand
  | .ok .fmix64 => .ok (okResponse .w64 (fmix64 r.arg) false)
  | .ok (.hash32 sgn) => .ok (okResponse .w32 (hash32 K r.klen.toNat r.seed) sgn)
  | .ok (.hash128x64 sgn) => .ok (okResponse .w128 (hash128x64 K r.klen.toNat r.seed) sgn)
  | .ok (.hash sgn) =>
    if r.width.toNat = 32 then .ok (okResponse .w32 (hash32 K r.klen.toNat r.seed) sgn)
    else if r.width.toNat = 128 then .ok (okResponse .w128 (hash128x64 K r.klen.toNat r.seed) sgn)
    else .error .invalidWidth

/-- Whether a delivered response is one that R37 allows: the response itself when STATUS = OK, and any
RESULT, RWIDTH and RSGN beside the STATUS of an error (R31, R140). -/
def admits (expected : Except Status Response) (p : Response) : Prop :=
  match expected with
  | .ok q => p = q
  | .error e => p.status = statusCode e

/-- What is left of that when the key changed during the transaction (R47): STATUS, RWIDTH and RSGN, and
the zero bits above N−1. -/
def admitsDisturbed (expected : Except Status Response) (p : Response) : Prop :=
  match expected with
  | .ok q =>
    p.status = q.status ∧ p.rwidth = q.rwidth ∧ p.rsgn = q.rsgn
      ∧ ∀ w, widthOfCode q.rwidth = some w → p.result.toNat < 2 ^ widthBits w
  | .error e => p.status = statusCode e

end Sys2Proof.Machine
end

