-- ==== Sys2Proof/Safety.lean ====
section
/-! DEFINITION. The terms in which claims speak of runs: the invariant of the state, and what a stretch of a run
leaves alone. -/

namespace Sys2Proof.Machine

/-- The invariant of the state: the tables are in canonical form, every channel that is named exists (R35),
and between steps no operation is half carried out (R34). -/
structure State.Inv (s : State) : Prop where
  /-- Each channel is listed at most once, so a channel has at most one outstanding request (R35). -/
  channelsRising : risingKeys s.channels
  /-- Only channels below NCH are Busy (R35). -/
  channelsExist : ∀ e ∈ s.channels, e.1 < Config.nch
  /-- Requests wait only on channels below NCH (R35). -/
  waitingExist : ∀ e ∈ s.waiting, e.1 < Config.nch
  /-- The key memory is canonical. -/
  memCanonical : Memory.wf s.mem
  /-- No operation is in progress between steps (R34). -/
  notServing : s.serving = none

/-- Every request still to be presented names a channel that exists (R35). -/
def State.presentsExist (s : State) : Prop :=
  ∀ c r, Move.present c r ∈ s.schedule → c < Config.nch

/-- Whether a move presents a request on channel `c`. -/
def Move.presentsOn (c : Nat) : Move → Bool
  | .present d _ => d == c
  | .accept _ => false
  | .respond _ => false
  | .keyWrite _ _ _ => false
  | .reset => false

/-- The next `k` moves neither answer channel `c` nor reset the block. -/
def State.leavesAlone (c : Nat) : Nat → State → Prop
  | 0, _ => True
  | k + 1, s =>
    nextMove s ≠ some (.respond c) ∧ nextMove s ≠ some .reset
      ∧ ∀ t, step s = .next t → State.leavesAlone c k t

/-- How many requests of channel `c` are unanswered: in progress, waiting, or yet to be presented. -/
def State.outstanding (s : State) (c : Nat) : Nat :=
  s.channels.countP (fun e => e.1 == c) + s.waiting.countP (fun e => e.1 == c)
    + s.schedule.countP (Move.presentsOn c)

/-- How many responses channel `c` has had. -/
def State.answered (s : State) (c : Nat) : Nat :=
  s.responses.countP fun e => e.1 == c

/-- An upper bound on the moves until the block has nothing left to do: three for a move of the schedule
(it may present a request), two for a waiting request, one for a request in progress (R38). -/
def State.movesLeft (s : State) : Nat :=
  3 * s.schedule.length + 2 * s.waiting.length + s.channels.length

end Sys2Proof.Machine
end

