-- ==== Sys2Proof/Certificates/Slice0/Obligations.lean ====
section
/-! DEFINITION. The statements for the provers, in the order of OBLIGATIONS.json. A statement that rests on a choice of
the model, and not of the spec, names the log entry. -/

open Sys2Proof Sys2Proof.Machine

/-! ### Encoding (30_encoding.md) -/

/-- Words written out from R62's table and list, and from 95_test_vectors.md section 3.7, and what they stand
for. -/
def Obligations.DecodedSpecWords : Prop :=
  decode 0x00000000 = .ok .fmix32
    ∧ decode 0x00000001 = .ok .fmix64
    ∧ decode 0x00000002 = .ok (.hash32 false)
    ∧ decode 0x0000000A = .ok (.hash32 true)
    ∧ decode 0x00000003 = .ok (.hash128x64 false)
    ∧ decode 0x0000000B = .ok (.hash128x64 true)
    ∧ decode 0x00000004 = .ok (.hash false)
    ∧ decode 0x0000000C = .ok (.hash true)
    ∧ decode 0x00000005 = .error .reservedOp
    ∧ decode 0x00000006 = .error .reservedOp
    ∧ decode 0x00000007 = .error .reservedOp
    ∧ decode 0x00000008 = .error .signedFinalizer
    ∧ decode 0x80000002 = .error .reservedBits

/-- R66, in numbers: RSV is `n / 16`, SGN is `n / 8 % 2` and OP is `n % 8` of the word's value `n`. -/
def Obligations.DecoderFollowsRule : Prop :=
  ∀ w : W32,
    (16 ≤ w.toNat → decode w = .error .reservedBits)
      ∧ (w.toNat < 16 →
          (w.toNat % 8 = 0 → decode w = if w.toNat / 8 = 1 then .error .signedFinalizer else .ok .fmix32)
          ∧ (w.toNat % 8 = 1 → decode w = if w.toNat / 8 = 1 then .error .signedFinalizer else .ok .fmix64)
          ∧ (w.toNat % 8 = 2 → decode w = .ok (.hash32 (w.toNat / 8 == 1)))
          ∧ (w.toNat % 8 = 3 → decode w = .ok (.hash128x64 (w.toNat / 8 == 1)))
          ∧ (w.toNat % 8 = 4 → decode w = .ok (.hash (w.toNat / 8 == 1)))
          ∧ (5 ≤ w.toNat % 8 → decode w = .error .reservedOp))

/-- Decoding and encoding agree in both directions: an operation's word decodes to it, and no other word
does (R62, R66). -/
def Obligations.DecodeEncodeAgree : Prop :=
  ∀ (w : W32) (i : Instr), i.wellFormed = true → (decode w = .ok i ↔ w = encode i)

/-- The words that decode are those R65 leaves legal, and they are the eight of R62. -/
def Obligations.LegalWordsAreEight : Prop :=
  ∀ w : W32,
    ((∃ i, decode w = .ok i) ↔ cmdLegal w = true)
      ∧ (cmdLegal w = true ↔ w ∈ ([0x0, 0x1, 0x2, 0xA, 0x3, 0xB, 0x4, 0xC] : List W32))

/-- R65: an illegal command word ends the transaction with ILLEGAL_COMMAND, and the response depends on
nothing else of the request, of the key or of the state; and an FMIX32 request with ARG[63:32] ≠ 0 ends with
ILLEGAL_OPERAND. That the response is one for each free value number, and that the number advances, is the
model's choice (log 9). -/
def Obligations.IllegalCommandEndsTransaction : Prop :=
  (∀ n : Nat, ∃ p : Response, p.status = 2 ∧
    ∀ (s : State) (c : Nat) (t : Transaction),
      s.freeDraws = n → tableGet c s.channels = some t →
      (5 ≤ t.req.cmd.toNat % 8 ∨ 16 ≤ t.req.cmd.toNat
        ∨ (t.req.cmd.toNat % 8 < 2 ∧ t.req.cmd.toNat / 8 % 2 = 1)) →
      respond c s = .next
        { s with
          channels := tableErase c s.channels
          responses := s.responses ++ [(c, p)]
          serving := none
          freeDraws := n + 1 })
  ∧ (∀ (s : State) (c : Nat) (t : Transaction),
      tableGet c s.channels = some t → t.req.cmd = 0 → 2 ^ 32 ≤ t.req.arg.toNat →
      ∃ p : Response, p.status = 3 ∧ respond c s = .next
        { s with
          channels := tableErase c s.channels
          responses := s.responses ++ [(c, p)]
          serving := none
          freeDraws := s.freeDraws + 1 })

/-! ### Finalizers (40_finalizers.md) -/

/-- R11: the rotation by `r` is the two shifts or-ed together, and its bit `i` is bit `(i − r) mod N`. -/
def Obligations.RotationMovesBits : Prop :=
  ∀ (n : Nat) (x : BitVec n) (r i : Nat), 0 < r → r < n → i < n →
    rotl x r = (x <<< r) ||| (x >>> (n - r)) ∧ (rotl x r).getLsbD i = x.getLsbD ((i + n - r) % n)

/-- R80 in natural numbers: shifts are divisions, products are taken modulo 2^32. -/
def Obligations.Fmix32FollowsRule : Prop :=
  ∀ h : W32, (fmix32 h).toNat =
    natXorShift 16 (natMul 32 0xc2b2ae35 (natXorShift 13 (natMul 32 0x85ebca6b (natXorShift 16 h.toNat))))

/-- R82 in natural numbers. -/
def Obligations.Fmix64FollowsRule : Prop :=
  ∀ h : W64, (fmix64 h).toNat =
    natXorShift 33 (natMul 64 0xc4ceb9fe1a85ec53
      (natXorShift 33 (natMul 64 0xff51afd7ed558ccd (natXorShift 33 h.toNat))))

/-- R85, the spec's derivation: the finalizers are bijections. -/
def Obligations.FinalizersBijective : Prop :=
  Function.Bijective fmix32 ∧ Function.Bijective fmix64

/-- R84 with R85: zero, and zero alone, goes to zero. -/
def Obligations.FinalizersFixOnlyZero : Prop :=
  (∀ h : W32, fmix32 h = 0 ↔ h = 0) ∧ (∀ h : W64, fmix64 h = 0 ↔ h = 0)

/-- FMIX32 completes on every operand of 32 bits, with the response of R81 on the channel being served and
nothing else of the state changed. That this holds too when the request has KLEN > 0 and its key changed is the
model's reading of R47 against R64 (log 7). -/
def Obligations.ExecFmix32Result : Prop :=
  ∀ (s : State) (c : Nat) (t : Transaction),
    s.serving = some c → tableGet c s.channels = some t → t.req.arg.toNat < 2 ^ 32 →
    exec .fmix32 s = .next
      { s with
        channels := tableErase c s.channels
        responses := s.responses ++
          [(c, { status := 0, result := BitVec.ofNat 128 (fmix32 (BitVec.ofNat 32 t.req.arg.toNat)).toNat,
                 rwidth := 0, rsgn := 0 })]
        serving := none }

/-- FMIX32 on an operand with a bit above bit 31 answers ILLEGAL_OPERAND (R81, R140). The free value
number that advances is the model's (log 9). -/
def Obligations.ExecFmix32IllegalOperand : Prop :=
  ∀ (s : State) (c : Nat) (t : Transaction),
    s.serving = some c → tableGet c s.channels = some t → 2 ^ 32 ≤ t.req.arg.toNat →
    ∃ p : Response, p.status = 3 ∧ exec .fmix32 s = .next
      { s with
        channels := tableErase c s.channels
        responses := s.responses ++ [(c, p)]
        serving := none
        freeDraws := s.freeDraws + 1 }

/-- FMIX64 completes on every operand, with the response of R83. That this holds too when the request has KLEN > 0
and its key changed is the model's reading of R47 against R64 (log 7). -/
def Obligations.ExecFmix64Result : Prop :=
  ∀ (s : State) (c : Nat) (t : Transaction),
    s.serving = some c → tableGet c s.channels = some t →
    exec .fmix64 s = .next
      { s with
        channels := tableErase c s.channels
        responses := s.responses ++
          [(c, { status := 0, result := BitVec.ofNat 128 (fmix64 t.req.arg).toNat, rwidth := 1, rsgn := 0 })]
        serving := none }

/-! ### Key words (20_memory.md) -/

/-- R44: byte `j` of a word read at offset `i` is KeyByte(i + j), and the 64-bit word is the two 32-bit
words, the one at the higher offset above the other. -/
def Obligations.KeyWordBytes : Prop :=
  ∀ (K : Nat → Byte) (i : Nat),
    (∀ j, j < 4 → (memRead32 K i).extractLsb' (8 * j) 8 = K (i + j))
      ∧ (∀ j, j < 8 → (memRead64 K i).extractLsb' (8 * j) 8 = K (i + j))
      ∧ memRead64 K i = memRead32 K (i + 4) ++ memRead32 K i

/-- R94 and R114: a tail is packed little-endian, its bytes at shifts 0, 8, 16 and so on, zeros above. -/
def Obligations.TailPackingBytes : Prop :=
  ∀ (K : Nat → Byte) (base t : Nat),
    (t ≤ 4 → ∀ j, j < 4 →
      (packTail 32 K base t).extractLsb' (8 * j) 8 = if j < t then K (base + j) else 0)
    ∧ (t ≤ 8 → ∀ j, j < 8 →
      (packTail 64 K base t).extractLsb' (8 * j) 8 = if j < t then K (base + j) else 0)

/-- R46: the hashes read the key at offsets below L only. -/
def Obligations.HashesReadOnlyTheKey : Prop :=
  ∀ (K K' : Nat → Byte) (L : Nat) (seed : W32), (∀ i, i < L → K i = K' i) →
    hash32 K L seed = hash32 K' L seed ∧ hash128x64 K L seed = hash128x64 K' L seed

/-! ### HASH32 (41_hash32.md) -/

/-- R91 and R92 in natural numbers: the key-word mix and the block step. -/
def Obligations.Block32FollowsRule : Prop :=
  ∀ h1 k1 : W32,
    (mixK32 k1).toNat = natMul 32 0x1b873593 (natRotl 32 15 (natMul 32 0xcc9e2d51 k1.toNat))
      ∧ (block32 h1 k1).toNat = natMulAdd5 32 0xe6546b64 (natRotl 32 13 (h1.toNat ^^^ (mixK32 k1).toNat))

/-- R96: hash32, read at offsets, is MurmurHash3_x86_32 of the key as a list of bytes, cut into
blocks and a tail. -/
def Obligations.Hash32IsStreaming : Prop :=
  ∀ (bs : List Byte) (seed : W32),
    hash32 (fun i => bs.getD i 0) bs.length seed = digest32 bs seed

/-- R99 (a): the empty key is finalized only. -/
def Obligations.Hash32EmptyKey : Prop :=
  ∀ (K : Nat → Byte) (seed : W32), hash32 K 0 seed = fmix32 seed ∧ hash32 K 0 0 = 0

/-- HASH32 completes on every key that stayed stable, with the digest of its L bytes (R98). -/
def Obligations.ExecHash32Result : Prop :=
  ∀ (sgn : Bool) (s : State) (c : Nat) (t : Transaction),
    s.serving = some c → tableGet c s.channels = some t → t.keyChanged = false →
    exec (.hash32 sgn) s = .next
      { s with
        channels := tableErase c s.channels
        responses := s.responses ++
          [(c, { status := 0, result := (digest32 (keyList s.mem t.req) t.req.seed).setWidth 128,
                 rwidth := 0, rsgn := BitVec.ofBool sgn })]
        serving := none }

/-! ### HASH128X64 (42_hash128x64.md) -/

/-- R111 and R112 in natural numbers: the two key mixes and the block step, in which h1's combine reads
the old h2 and h2's combine reads the h1 just written. -/
def Obligations.Block64FollowsRule : Prop :=
  ∀ (h : Lanes) (k1 k2 : W64),
    (mixK1x64 k1).toNat = natMul 64 0x4cf5ad432745937f (natRotl 64 31 (natMul 64 0x87c37b91114253d5 k1.toNat))
      ∧ (mixK2x64 k2).toNat
          = natMul 64 0x87c37b91114253d5 (natRotl 64 33 (natMul 64 0x4cf5ad432745937f k2.toNat))
      ∧ (block64 h k1 k2).1.toNat
          = natMulAdd5 64 0x52dce729 (natRotl 64 27 (h.1.toNat ^^^ (mixK1x64 k1).toNat) + h.2.toNat)
      ∧ (block64 h k1 k2).2.toNat
          = natMulAdd5 64 0x38495ab5
              ((block64 h k1 k2).1.toNat + natRotl 64 31 (h.2.toNat ^^^ (mixK2x64 k2).toNat))

/-- R116 and R117: hash128_x64, read at offsets, is MurmurHash3_x64_128 of the key as a list of bytes,
cut into blocks and a tail, h2 in the upper half and h1 in the lower. -/
def Obligations.Hash128IsStreaming : Prop :=
  ∀ (bs : List Byte) (seed : W32), bs.length < 2 ^ 32 →
    (hash128x64 (fun i => bs.getD i 0) bs.length seed).extractLsb' 64 64 = (digest128 bs seed).1
      ∧ (hash128x64 (fun i => bs.getD i 0) bs.length seed).extractLsb' 0 64 = (digest128 bs seed).2

/-- R119: on the empty key the result depends on the seed alone, and it is 0 for the seed 0. -/
def Obligations.Hash128EmptyKey : Prop :=
  ∀ (K K' : Nat → Byte) (seed : W32),
    hash128x64 K 0 seed = hash128x64 K' 0 seed ∧ hash128x64 K 0 0 = 0

/-- HASH128X64 completes on every key that stayed stable, with the digest of its L bytes (R118). -/
def Obligations.ExecHash128Result : Prop :=
  ∀ (sgn : Bool) (s : State) (c : Nat) (t : Transaction),
    s.serving = some c → tableGet c s.channels = some t → t.keyChanged = false →
    exec (.hash128x64 sgn) s = .next
      { s with
        channels := tableErase c s.channels
        responses := s.responses ++
          [(c, { status := 0,
                 result := (digest128 (keyList s.mem t.req) t.req.seed).1
                   ++ (digest128 (keyList s.mem t.req) t.req.seed).2,
                 rwidth := 2, rsgn := BitVec.ofBool sgn })]
        serving := none }

/-! ### HASH (43_dispatcher.md) -/

/-- HASH completes with a legal WIDTH on every key that stayed stable, with the digest that WIDTH selects
(R130). -/
def Obligations.ExecHashResult : Prop :=
  ∀ (sgn : Bool) (s : State) (c : Nat) (t : Transaction),
    s.serving = some c → tableGet c s.channels = some t → t.keyChanged = false →
    (t.req.width.toNat = 32 → exec (.hash sgn) s = .next
      { s with
        channels := tableErase c s.channels
        responses := s.responses ++
          [(c, { status := 0, result := (digest32 (keyList s.mem t.req) t.req.seed).setWidth 128,
                 rwidth := 0, rsgn := BitVec.ofBool sgn })]
        serving := none })
    ∧ (t.req.width.toNat = 128 → exec (.hash sgn) s = .next
      { s with
        channels := tableErase c s.channels
        responses := s.responses ++
          [(c, { status := 0,
                 result := (digest128 (keyList s.mem t.req) t.req.seed).1
                   ++ (digest128 (keyList s.mem t.req) t.req.seed).2,
                 rwidth := 2, rsgn := BitVec.ofBool sgn })]
        serving := none })

/-- Every other WIDTH, all 32 bits compared, answers INVALID_WIDTH, whether or not the key changed; the
response depends on nothing of SEED, KLEN and the key (R130, R132). That it is one response for each free value
number, and that the number advances, is the model's choice (log 9). -/
def Obligations.ExecHashInvalidWidth : Prop :=
  ∀ n : Nat, ∃ p : Response, p.status = 1 ∧
    ∀ (sgn : Bool) (s : State) (c : Nat) (t : Transaction),
      s.freeDraws = n → s.serving = some c → tableGet c s.channels = some t →
      t.req.width.toNat ≠ 32 → t.req.width.toNat ≠ 128 →
      exec (.hash sgn) s = .next
        { s with
          channels := tableErase c s.channels
          responses := s.responses ++ [(c, p)]
          serving := none
          freeDraws := n + 1 }

/-- R131: with WIDTH = 32 the command word of HASH and that of HASH32 give the same outcome on the same
request, and with WIDTH = 128 those of HASH and HASH128X64. Where the key changed, R47 leaves both RESULTs free;
that they are equal then is the model's one value for each free value number (log 9). -/
def Obligations.DispatcherEquivalence : Prop :=
  ∀ (sgn : Bool) (s : State) (c : Nat) (t : Transaction), tableGet c s.channels = some t →
    (t.req.width = 32 →
      respond c (placeCommand c (encode (.hash sgn)) s) = respond c (placeCommand c (encode (.hash32 sgn)) s))
    ∧ (t.req.width = 128 →
      respond c (placeCommand c (encode (.hash sgn)) s)
        = respond c (placeCommand c (encode (.hash128x64 sgn)) s))

/-! ### Responses (10_state.md, 60_exceptions.md) -/

/-- R47: when the key changed during the transaction, a hash still completes with STATUS = OK and its
RWIDTH and RSGN; RESULT[N−1:0] is some value, zeros above. The value is free (log 9). -/
def Obligations.KeyChangedResponse : Prop :=
  ∀ (sgn : Bool) (s : State) (c : Nat) (t : Transaction),
    s.serving = some c → tableGet c s.channels = some t → t.keyChanged = true →
    (∃ v : W32, exec (.hash32 sgn) s = .next
      { s with
        channels := tableErase c s.channels
        responses := s.responses ++ [(c, { status := 0, result := v.setWidth 128, rwidth := 0, rsgn := BitVec.ofBool sgn })]
        serving := none
        freeDraws := s.freeDraws + 1 })
    ∧ (∃ v : W128, exec (.hash128x64 sgn) s = .next
      { s with
        channels := tableErase c s.channels
        responses := s.responses ++ [(c, { status := 0, result := v, rwidth := 2, rsgn := BitVec.ofBool sgn })]
        serving := none
        freeDraws := s.freeDraws + 1 })
    ∧ (t.req.width = 32 → ∃ v : W32, exec (.hash sgn) s = .next
      { s with
        channels := tableErase c s.channels
        responses := s.responses ++ [(c, { status := 0, result := v.setWidth 128, rwidth := 0, rsgn := BitVec.ofBool sgn })]
        serving := none
        freeDraws := s.freeDraws + 1 })
    ∧ (t.req.width = 128 → ∃ v : W128, exec (.hash sgn) s = .next
      { s with
        channels := tableErase c s.channels
        responses := s.responses ++ [(c, { status := 0, result := v, rwidth := 2, rsgn := BitVec.ofBool sgn })]
        serving := none
        freeDraws := s.freeDraws + 1 })

/-- R31 and R32: whatever operation answers OK, RWIDTH names the operation's width, is never 3, RESULT is
zero above that width, and RSGN is the operation's SGN. -/
def Obligations.OkResponseShape : Prop :=
  ∀ (i : Instr) (s s' : State), exec i s = .next s' →
    ∃ c t p, s.serving = some c ∧ tableGet c s.channels = some t ∧ s'.responses = s.responses ++ [(c, p)]
      ∧ (p.status = 0 →
          p.rsgn = BitVec.ofBool i.sgn
          ∧ (∃ w, widthOfCode p.rwidth = some w ∧ p.result.toNat < 2 ^ widthBits w)
          ∧ (p.rwidth = 0 ↔ i.op = 0 ∨ i.op = 2 ∨ (i.op = 4 ∧ t.req.width = 32))
          ∧ (p.rwidth = 1 ↔ i.op = 1)
          ∧ (p.rwidth = 2 ↔ i.op = 3 ∨ (i.op = 4 ∧ t.req.width = 128)))

/-- R97: the result word is delivered unchanged, the choice of signedness as the tag; the integer the response
stands for, by the rule's formula; and that it is the result word modulo 2^N for both signednesses. -/
def Obligations.SignedValue : Prop :=
  ∀ (w : ResultWidth) (v : BitVec (widthBits w)) (sgn : Bool),
    (okResponse w v sgn).result.toNat = v.toNat ∧ (okResponse w v sgn).rsgn = BitVec.ofBool sgn
    ∧ responseValue (okResponse w v sgn)
      = some (if sgn = true ∧ 2 ^ (widthBits w - 1) ≤ v.toNat
          then -(((v.toNat ^^^ (2 ^ widthBits w - 1)) + 1 : Nat) : Int) else (v.toNat : Int))
    ∧ ∀ x, responseValue (okResponse w v sgn) = some x → x % 2 ^ widthBits w = (v.toNat : Int)

/-- R140: the STATUS of every transaction, by cause. With R144: CMD is checked first. -/
def Obligations.StatusCauses : Prop :=
  ∀ (s : State) (c : Nat) (t : Transaction), tableGet c s.channels = some t →
    ∃ s' p, respond c s = .next s' ∧ s'.responses = s.responses ++ [(c, p)]
      ∧ (p.status = 0 ↔ cmdLegal t.req.cmd = true
          ∧ (t.req.cmd = 0 → t.req.arg.toNat < 2 ^ 32)
          ∧ (t.req.cmd = 0x4 ∨ t.req.cmd = 0xC → t.req.width = 32 ∨ t.req.width = 128))
      ∧ (p.status = 1 ↔ (t.req.cmd = 0x4 ∨ t.req.cmd = 0xC) ∧ t.req.width ≠ 32 ∧ t.req.width ≠ 128)
      ∧ (p.status = 2 ↔ 16 ≤ t.req.cmd.toNat ∨ 5 ≤ t.req.cmd.toNat % 8
          ∨ (t.req.cmd.toNat % 8 < 2 ∧ t.req.cmd.toNat / 8 % 2 = 1))
      ∧ (p.status = 3 ↔ t.req.cmd = 0 ∧ 2 ^ 32 ≤ t.req.arg.toNat)

/-- R142: the STATUS is decided by CMD, ARG and WIDTH: the same request issued again, on any channel, in any
state, whatever has become of its key, gives the same STATUS. -/
def Obligations.SameRequestSameStatus : Prop :=
  ∀ (s s' : State) (c c' : Nat) (t t' : Transaction),
    tableGet c s.channels = some t → tableGet c' s'.channels = some t' →
    t.req.cmd = t'.req.cmd → t.req.arg = t'.req.arg → t.req.width = t'.req.width →
    ∃ u u' p p', respond c s = .next u ∧ respond c' s' = .next u'
      ∧ u.responses = s.responses ++ [(c, p)] ∧ u'.responses = s'.responses ++ [(c', p')]
      ∧ p.status = p'.status

/-- R37: what the machine delivers is what the response function gives for the request and the key bytes,
and, if the key changed (as log 7 reads it), what R47 leaves of it. -/
def Obligations.RespondMatchesRule37 : Prop :=
  ∀ (s : State) (c : Nat) (t : Transaction), tableGet c s.channels = some t →
    ∃ u p, respond c s = .next u ∧ u.responses = s.responses ++ [(c, p)] ∧ tableGet c u.channels = none
      ∧ (t.keyChanged = false → admits (respondTo t.req (keyByte s.mem t.req)) p)
      ∧ (t.keyChanged = true → admitsDisturbed (respondTo t.req (keyByte s.mem t.req)) p)

/-! ### Frames and memory -/

/-- What each of the five operations leaves unchanged when it gives a next state: every byte of key memory
(R41), the other channels (R36), the requests waiting, the schedule, the responses already delivered. The
channel it answers is Idle again (R35), one response longer is the record, at most one free value drawn
(log 9). -/
def Obligations.ExecFrame : Prop :=
  ∀ (i : Instr) (s s' : State), exec i s = .next s' →
    ∃ c p, s.serving = some c
      ∧ s'.responses = s.responses ++ [(c, p)]
      ∧ tableGet c s'.channels = none
      ∧ (∀ d, d ≠ c → tableGet d s'.channels = tableGet d s.channels)
      ∧ (∀ a, s'.mem.read a = s.mem.read a)
      ∧ s'.waiting = s.waiting ∧ s'.schedule = s.schedule
      ∧ s.freeDraws ≤ s'.freeDraws ∧ s'.freeDraws ≤ s.freeDraws + 1

/-- R41: no move of the block, of a requester or of reset changes a byte of key memory; a host's write
changes the one byte it names. -/
def Obligations.KeyBytesChangeOnlyByHost : Prop :=
  ∀ (s t : State) (a : Nat), step s = .next t →
    t.mem.read a = s.mem.read a
      ∨ ∃ v o b, nextMove s = some (.keyWrite v o b) ∧ a = keyAddr v o.toNat ∧ t.mem.read a = b

/-- R47, as the model reads it (log 7): a host's write marks exactly the transactions in progress whose key
view holds the byte, and only if the byte changes. -/
def Obligations.KeyWriteMarksTransactions : Prop :=
  ∀ (s : State) (v : Nat) (o : W32) (b : Byte), nextMove s = some (.keyWrite v o b) →
    ∃ u, step s = .next u ∧ u.mem.read (keyAddr v o.toNat) = b
      ∧ (∀ c, tableGet c s.channels = none → tableGet c u.channels = none)
      ∧ (∀ c t, tableGet c s.channels = some t → ∃ t', tableGet c u.channels = some t' ∧ t'.req = t.req
          ∧ (t'.keyChanged = true ↔ t.keyChanged = true
              ∨ (t.req.view = v ∧ o.toNat < t.req.klen.toNat ∧ s.mem.read (keyAddr v o.toNat) ≠ b)))
      ∧ u.waiting = s.waiting ∧ u.responses = s.responses ∧ u.freeDraws = s.freeDraws

/-- R47, R49: a transaction that is not marked (log 7) still sees, after any step, the key bytes it saw before. -/
def Obligations.StableKeyBytes : Prop :=
  ∀ (s u : State) (c : Nat) (t t' : Transaction), step s = .next u →
    tableGet c s.channels = some t → tableGet c u.channels = some t' → t'.keyChanged = false →
    ∀ i, i < t.req.klen.toNat → keyByte u.mem t'.req i = keyByte s.mem t.req i

/-! ### The transaction protocol (10_state.md section 5, 70_reset_and_hazards.md) -/

/-- R160: right after reset every channel is Idle, no request is held, no response is pending, and no
operation is in progress that could have an accumulator. -/
def Obligations.ResetStateIdle : Prop :=
  (∀ c, tableGet c State.reset.channels = none) ∧ State.reset.waiting = [] ∧ State.reset.responses = []
    ∧ State.reset.serving = none

/-- R161: the reset move makes every channel Idle from any state, delivers no response for what was in progress,
and drops what is held (log 13); it touches no key byte and nothing that was delivered. -/
def Obligations.ResetAbandonsTransactions : Prop :=
  ∀ (s : State) (ms : List Move), s.schedule = .reset :: ms →
    ∃ u, step s = .next u ∧ (∀ c, tableGet c u.channels = none) ∧ u.waiting = [] ∧ u.serving = none
      ∧ u.responses = s.responses ∧ u.mem = s.mem ∧ u.schedule = ms ∧ u.freeDraws = s.freeDraws

/-- R35 and R165: a request presented on a channel that exists joins the requests waiting, Idle channel or
Busy, and nothing else changes; on a channel number from NCH on it is refused (log 2). -/
def Obligations.PresentedRequestWaits : Prop :=
  ∀ (s : State) (c : Nat) (r : Request), nextMove s = some (.present c r) →
    (c < Config.nch → step s = .next { s with waiting := s.waiting ++ [(c, r)], schedule := s.schedule.tail })
      ∧ (Config.nch ≤ c → step s = .refused .noSuchChannel)

/-- R165: a request that waits goes on waiting, but for reset (log 13), until its channel is Idle and accepts it. -/
def Obligations.HeldRequestsStay : Prop :=
  ∀ (s u : State) (e : Nat × Request), step s = .next u → e ∈ s.waiting →
    e ∈ u.waiting ∨ nextMove s = some .reset
      ∨ (nextMove s = some (.accept e.1) ∧ tableGet e.1 s.channels = none
          ∧ tableGet e.1 u.channels = some { req := e.2, keyChanged := false })

/-- R35, R161: an accepted request stays as it is until its channel's response is delivered, one response
and no more, or until reset abandons it without one. -/
def Obligations.RequestStaysUntilAnswered : Prop :=
  ∀ (s u : State) (c : Nat) (t : Transaction), step s = .next u → tableGet c s.channels = some t →
    (∃ t', tableGet c u.channels = some t' ∧ t'.req = t.req ∧ (t.keyChanged = true → t'.keyChanged = true)
        ∧ u.answered c = s.answered c)
      ∨ (nextMove s = some (.respond c) ∧ tableGet c u.channels = none
          ∧ ∃ p, u.responses = s.responses ++ [(c, p)])
      ∨ (nextMove s = some .reset ∧ tableGet c u.channels = none ∧ u.responses = s.responses)

/-- R35, R165: an Idle channel accepts a request waiting on it, which is then that channel's transaction, and
nothing else changes. That the oldest goes first is the model's (log 10). -/
def Obligations.AcceptIssuesOldest : Prop :=
  ∀ (s : State) (c : Nat) (r : Request) (before after : List (Nat × Request)),
    nextMove s = some (.accept c) → tableGet c s.channels = none →
    s.waiting = before ++ (c, r) :: after → (∀ e ∈ before, e.1 ≠ c) →
    step s = .next
      { s with
        channels := tableSet c { req := r, keyChanged := false } s.channels
        waiting := before ++ after
        schedule := s.schedule.tail }

/-- R162: the first request after reset, on any channel, with any fields and any key bytes in the host's
memory, is accepted and answered as R37 says. -/
def Obligations.FirstRequestAfterReset : Prop :=
  ∀ (c : Nat) (r : Request) (m : Memory), c < Config.nch →
    ∃ u p, core.run 3 { State.reset with mem := m, schedule := [.present c r, .accept c, .respond c] } = .next u
      ∧ u.responses = [(c, p)] ∧ u.channels = [] ∧ u.waiting = [] ∧ u.mem = m
      ∧ admits (respondTo r (keyByte m r)) p

/-! ### Steps and runs -/

/-- When the next move answers channel `c` and its command word decodes, the step is that operation, the
move taken off the schedule and the channel being served; the schedule and the serving field are the model's
(log 1, log 12). -/
def Obligations.StepRunsDecoded : Prop :=
  ∀ (s : State) (c : Nat) (t : Transaction) (i : Instr),
    nextMove s = some (.respond c) → tableGet c s.channels = some t → decode t.req.cmd = .ok i →
    step s = exec i { s with schedule := s.schedule.tail, serving := some c }

/-- R141: nothing stops the machine. Every step of every state gives a next state, but for a request
presented on a channel that does not exist, which the model refuses (log 2). -/
def Obligations.StepAnswersOrRefuses : Prop :=
  ∀ s : State, (∃ t, step s = .next t)
    ∨ (step s = .refused .noSuchChannel ∧ ∃ c r ms, s.schedule = .present c r :: ms ∧ Config.nch ≤ c)

/-- Every step keeps the invariant: canonical tables and memory, channels that exist, at most one request
in progress on each (R35), no operation half carried out. -/
def Obligations.StepKeepsInvariant : Prop :=
  ∀ s t : State, s.Inv → step s = .next t → t.Inv

/-- The reset state meets the invariant. -/
def Obligations.InvariantAtReset : Prop := State.reset.Inv

/-- R35 and R38: from every state that meets the invariant and whose schedule holds no reset, the block
comes to rest after at most `movesLeft` moves, every channel Idle and nothing waiting, and each channel has
then had exactly one response for each request that was in progress, waiting, or presented on it. The schedule, and
the moves once it is empty, are the model's (log 1, log 15). -/
def Obligations.EveryRequestAnswered : Prop :=
  ∀ s : State, s.Inv → s.presentsExist → Move.reset ∉ s.schedule →
    ∃ u, core.run s.movesLeft s = .next u ∧ u.schedule = [] ∧ u.channels = [] ∧ u.waiting = []
      ∧ ∀ c, u.answered c = s.answered c + s.outstanding c

/-- R49 and R36: the response of a request is decided when it is issued. Whatever the other channels, the
requesters and the host do meanwhile, after `k` moves that neither answer channel `c` nor reset the block the
channel still holds the request, and its answer is the one R37 gives for the key bytes as they were at the
issue, unless the key changed (log 7); then R47 says what is left of it. -/
def Obligations.IssueTimeKeyDecidesResponse : Prop :=
  ∀ (k : Nat) (s u : State) (c : Nat) (r : Request),
    tableGet c s.channels = some { req := r, keyChanged := false } →
    s.leavesAlone c k → core.run k s = .next u →
    ∃ t, tableGet c u.channels = some t ∧ t.req = r
      ∧ (nextMove u = some (.respond c) →
          ∃ v p, step u = .next v ∧ v.responses = u.responses ++ [(c, p)]
            ∧ (t.keyChanged = false → admits (respondTo r (keyByte s.mem r)) p)
            ∧ (t.keyChanged = true → admitsDisturbed (respondTo r (keyByte s.mem r)) p))

/-- R20, R36 and R64: on whatever channel and in whatever state, a response depends on CMD, on the fields and
key bytes that R64 lists for the operation, on whether the key changed if it reads the key, and, where R31 or R47
leaves a value open, on the free value number; on nothing else of the request or of the state. That equal numbers
give equal free values is the model's (log 9), and that a finalizer's response ignores a changed key is its reading
of R47 against R64 (log 7). -/
def Obligations.ResponseReadsListedFieldsOnly : Prop :=
  ∀ (s s' : State) (c c' : Nat) (t t' : Transaction),
    tableGet c s.channels = some t → tableGet c' s'.channels = some t' →
    t.req.cmd = t'.req.cmd → s.freeDraws = s'.freeDraws →
    (∀ i, decode t.req.cmd = .ok i →
      (i.op.toNat < 2 → t.req.arg = t'.req.arg)
      ∧ (2 ≤ i.op.toNat → t.req.seed = t'.req.seed ∧ t.req.klen = t'.req.klen ∧ t.keyChanged = t'.keyChanged
          ∧ ∀ j, j < t.req.klen.toNat → keyByte s.mem t.req j = keyByte s'.mem t'.req j)
      ∧ (i.op = 4 → t.req.width = t'.req.width)) →
    ∃ p u u', respond c s = .next u ∧ u.responses = s.responses ++ [(c, p)]
      ∧ respond c' s' = .next u' ∧ u'.responses = s'.responses ++ [(c', p)] ∧ u.freeDraws = u'.freeDraws

/-- R36: two transactions may be answered in either order. Both orders leave the same channels, key bytes and
waiting requests, and give each channel the same STATUS, and the same response where it is OK and the key
stayed stable. The free value count, the same in both orders, is the model's (log 9). -/
def Obligations.RespondOrderIrrelevant : Prop :=
  ∀ (s : State) (c d : Nat) (t t' : Transaction), c ≠ d →
    tableGet c s.channels = some t → tableGet d s.channels = some t' →
    ∃ u v pc pd qc qd,
      core.run 2 { s with schedule := [.respond c, .respond d] } = .next u
      ∧ core.run 2 { s with schedule := [.respond d, .respond c] } = .next v
      ∧ u.responses = s.responses ++ [(c, pc), (d, pd)]
      ∧ v.responses = s.responses ++ [(d, qd), (c, qc)]
      ∧ u.channels = v.channels ∧ u.mem = v.mem ∧ u.waiting = v.waiting ∧ u.freeDraws = v.freeDraws
      ∧ pc.status = qc.status ∧ pd.status = qd.status
      ∧ (t.keyChanged = false → pc.status = 0 → pc = qc)
      ∧ (t'.keyChanged = false → pd.status = 0 → pd = qd)

/-! ### Assembler (R68, R69) -/

/-- A line of assembler, already read into an AsmLine: on an Idle channel with nothing waiting, the moves of
the line write its key, issue its request and deliver one response, the one R37 gives for the request and the
line's own key bytes, whatever the view held before. Reading the text (parseLine) is not in it; the schedule and
the order of moves are the model's (log 1, log 10). -/
def Obligations.AssembledLineIsAnswered : Prop :=
  ∀ (c v : Nat) (l : AsmLine) (ms : List Move) (s : State),
    c < Config.nch → asmMoves c v l = some ms → s.schedule = ms →
    tableGet c s.channels = none → (∀ e ∈ s.waiting, e.1 ≠ c) →
    ∃ r u p, assemble v l = some r ∧ core.run ms.length s = .next u
      ∧ u.responses = s.responses ++ [(c, p)] ∧ tableGet c u.channels = none ∧ u.waiting = s.waiting
      ∧ admits (respondTo r fun i => (asmKey l).getD i 0) p

/-- R69: an omitted seed is the seed 0, and a mnemonic without `.s` is SGN = 0; the fields an operation does not
read are encoded as 0; the command word of a line decodes to the line's operation, so a `hash 32` line keeps
OP = 4, and it is answered as the `hash32` line is. -/
def Obligations.AssemblerDefaults : Prop :=
  (∀ (v : Nat) (sgn : Bool) (width : W32) (key : List Byte),
    assemble v (.hash32 sgn key none) = assemble v (.hash32 sgn key (some 0))
    ∧ assemble v (.hash128x64 sgn key none) = assemble v (.hash128x64 sgn key (some 0))
    ∧ assemble v (.hash sgn width key none) = assemble v (.hash sgn width key (some 0)))
  ∧ parseMnemonic "hash32".toList = some (.hash32 false) ∧ parseMnemonic "hash32.s".toList = some (.hash32 true)
  ∧ parseMnemonic "hash128_x64".toList = some (.hash128x64 false)
  ∧ parseMnemonic "hash128_x64.s".toList = some (.hash128x64 true)
  ∧ parseMnemonic "hash".toList = some (.hash false) ∧ parseMnemonic "hash.s".toList = some (.hash true)
  ∧ (∀ v l r, assemble v l = some r →
      decode r.cmd = .ok (asmInstr l) ∧ r.klen.toNat = (asmKey l).length
      ∧ ((asmInstr l).op.toNat < 2 → r.seed = 0 ∧ r.klen = 0) ∧ (2 ≤ (asmInstr l).op.toNat → r.arg = 0)
      ∧ ((asmInstr l).op.toNat < 4 → r.width = 0))
  ∧ ∀ v sgn key seed r r' K, assemble v (.hash sgn 32 key seed) = some r →
      assemble v (.hash32 sgn key seed) = some r' → respondTo r K = respondTo r' K
end

