-- ==== Sys2Proof/Laws/Decode.lean ====
section
/-! SUPPORT. The fields of the command word as numbers, and the operand checks. -/

namespace Sys2Proof

theorem cmdRsv_ne_zero_iff (w : W32) : cmdRsv w ≠ 0 ↔ 16 ≤ w.toNat := by
  have := w.isLt
  rw [Ne, ← BitVec.toNat_inj]
  simp [cmdRsv, Nat.shiftRight_eq_div_pow]
  omega

theorem cmdOp_toNat (w : W32) : (cmdOp w).toNat = w.toNat % 8 := by simp [cmdOp]

theorem cmdSgn_eq (w : W32) (h : w.toNat < 16) : cmdSgn w = (w.toNat / 8 == 1) := by
  simp [cmdSgn, BitVec.getLsbD, Nat.testBit, Nat.shiftRight_eq_div_pow]
  have : w.toNat / 8 < 2 := by omega
  interval_cases w.toNat / 8 <;> simp

end Sys2Proof

namespace Sys2Proof.Machine

theorem argHigh_eq_zero_iff (r : Request) : argHigh r = 0 ↔ r.arg.toNat < 2 ^ 32 := by
  have := r.arg.isLt
  rw [← BitVec.toNat_inj]
  simp [argHigh, Nat.shiftRight_eq_div_pow]
  omega

/-- The three cases of the WIDTH check (R130). -/
theorem hashWidth_cases (r : Request) :
    (r.width = 32 ∧ hashWidth r = some .width32) ∨ (r.width = 128 ∧ hashWidth r = some .width128)
      ∨ (r.width ≠ 32 ∧ r.width ≠ 128 ∧ hashWidth r = none) := by
  unfold hashWidth
  by_cases h : r.width = 32
  · simp [h]
  · by_cases h' : r.width = 128
    · simp [h']
    · exact .inr (.inr ⟨h, h', by rw [if_neg h, if_neg h']⟩)

end Sys2Proof.Machine
end

