-- ==== Sys2Proof/Laws/State.lean ====
section
/-! SUPPORT. What each update of the state does to each field: one lemma per field per update, true by rfl, so that no
later proof unfolds a record update. -/

namespace Sys2Proof.Machine

/-! ### State.answer -/

@[simp] theorem State.answer_channels (s : State) (c : Nat) (p : Response) : (s.answer c p).channels = tableErase c s.channels := rfl
@[simp] theorem State.answer_waiting (s : State) (c : Nat) (p : Response) : (s.answer c p).waiting = s.waiting := rfl
@[simp] theorem State.answer_responses (s : State) (c : Nat) (p : Response) : (s.answer c p).responses = s.responses ++ [(c, p)] := rfl
@[simp] theorem State.answer_mem (s : State) (c : Nat) (p : Response) : (s.answer c p).mem = s.mem := rfl
@[simp] theorem State.answer_schedule (s : State) (c : Nat) (p : Response) : (s.answer c p).schedule = s.schedule := rfl
@[simp] theorem State.answer_serving (s : State) (c : Nat) (p : Response) : (s.answer c p).serving = none := rfl
@[simp] theorem State.answer_freeDraws (s : State) (c : Nat) (p : Response) : (s.answer c p).freeDraws = s.freeDraws := rfl

/-! ### State.drawn -/

@[simp] theorem State.drawn_channels (s : State) : (s.drawn).channels = s.channels := rfl
@[simp] theorem State.drawn_waiting (s : State) : (s.drawn).waiting = s.waiting := rfl
@[simp] theorem State.drawn_responses (s : State) : (s.drawn).responses = s.responses := rfl
@[simp] theorem State.drawn_mem (s : State) : (s.drawn).mem = s.mem := rfl
@[simp] theorem State.drawn_schedule (s : State) : (s.drawn).schedule = s.schedule := rfl
@[simp] theorem State.drawn_serving (s : State) : (s.drawn).serving = s.serving := rfl
@[simp] theorem State.drawn_freeDraws (s : State) : (s.drawn).freeDraws = s.freeDraws + 1 := rfl

/-! ### State.pop -/

@[simp] theorem State.pop_channels (s : State) : (s.pop).channels = s.channels := rfl
@[simp] theorem State.pop_waiting (s : State) : (s.pop).waiting = s.waiting := rfl
@[simp] theorem State.pop_responses (s : State) : (s.pop).responses = s.responses := rfl
@[simp] theorem State.pop_mem (s : State) : (s.pop).mem = s.mem := rfl
@[simp] theorem State.pop_schedule (s : State) : (s.pop).schedule = s.schedule.tail := rfl
@[simp] theorem State.pop_serving (s : State) : (s.pop).serving = s.serving := rfl
@[simp] theorem State.pop_freeDraws (s : State) : (s.pop).freeDraws = s.freeDraws := rfl

/-! ### State.serve -/

@[simp] theorem State.serve_channels (s : State) (c : Nat) : (s.serve c).channels = s.channels := rfl
@[simp] theorem State.serve_waiting (s : State) (c : Nat) : (s.serve c).waiting = s.waiting := rfl
@[simp] theorem State.serve_responses (s : State) (c : Nat) : (s.serve c).responses = s.responses := rfl
@[simp] theorem State.serve_mem (s : State) (c : Nat) : (s.serve c).mem = s.mem := rfl
@[simp] theorem State.serve_schedule (s : State) (c : Nat) : (s.serve c).schedule = s.schedule := rfl
@[simp] theorem State.serve_serving (s : State) (c : Nat) : (s.serve c).serving = some c := rfl
@[simp] theorem State.serve_freeDraws (s : State) (c : Nat) : (s.serve c).freeDraws = s.freeDraws := rfl

/-! ### resetBlock -/

@[simp] theorem resetBlock_channels (s : State) : (resetBlock s).channels = [] := rfl
@[simp] theorem resetBlock_waiting (s : State) : (resetBlock s).waiting = [] := rfl
@[simp] theorem resetBlock_responses (s : State) : (resetBlock s).responses = s.responses := rfl
@[simp] theorem resetBlock_mem (s : State) : (resetBlock s).mem = s.mem := rfl
@[simp] theorem resetBlock_schedule (s : State) : (resetBlock s).schedule = s.schedule := rfl
@[simp] theorem resetBlock_serving (s : State) : (resetBlock s).serving = none := rfl
@[simp] theorem resetBlock_freeDraws (s : State) : (resetBlock s).freeDraws = s.freeDraws := rfl

/-! ### keyWrite -/

@[simp] theorem keyWrite_waiting (v : Nat) (o : W32) (b : Byte) (s : State) : (keyWrite v o b s).waiting = s.waiting := rfl
@[simp] theorem keyWrite_responses (v : Nat) (o : W32) (b : Byte) (s : State) : (keyWrite v o b s).responses = s.responses := rfl
@[simp] theorem keyWrite_mem (v : Nat) (o : W32) (b : Byte) (s : State) : (keyWrite v o b s).mem = s.mem.write (keyAddr v o.toNat) b := rfl
@[simp] theorem keyWrite_schedule (v : Nat) (o : W32) (b : Byte) (s : State) : (keyWrite v o b s).schedule = s.schedule := rfl
@[simp] theorem keyWrite_serving (v : Nat) (o : W32) (b : Byte) (s : State) : (keyWrite v o b s).serving = s.serving := rfl
@[simp] theorem keyWrite_freeDraws (v : Nat) (o : W32) (b : Byte) (s : State) : (keyWrite v o b s).freeDraws = s.freeDraws := rfl

/-! ### placeCommand -/

@[simp] theorem placeCommand_waiting (c : Nat) (w : W32) (s : State) : (placeCommand c w s).waiting = s.waiting := rfl
@[simp] theorem placeCommand_responses (c : Nat) (w : W32) (s : State) : (placeCommand c w s).responses = s.responses := rfl
@[simp] theorem placeCommand_mem (c : Nat) (w : W32) (s : State) : (placeCommand c w s).mem = s.mem := rfl
@[simp] theorem placeCommand_schedule (c : Nat) (w : W32) (s : State) : (placeCommand c w s).schedule = s.schedule := rfl
@[simp] theorem placeCommand_serving (c : Nat) (w : W32) (s : State) : (placeCommand c w s).serving = s.serving := rfl
@[simp] theorem placeCommand_freeDraws (c : Nat) (w : W32) (s : State) : (placeCommand c w s).freeDraws = s.freeDraws := rfl

/-! ### withFetchWord -/

@[simp] theorem State.withFetchWord_schedule (s : State) (n w : Nat) :
    (s.withFetchWord n w).schedule = .respond 0 :: s.schedule := rfl

@[simp] theorem State.withFetchWord_channels (s : State) (n w : Nat) :
    (s.withFetchWord n w).channels = (placeCommand 0 (BitVec.ofNat 32 (w % 2 ^ n)) s).channels := rfl

end Sys2Proof.Machine
end

