-- ==== Sys2Proof/Laws/Table.lean ====
section
/-! SUPPORT. The sparse tables: what a look-up finds after an update, and that updates keep the keys rising. -/

namespace Sys2Proof.Machine

variable {α : Type}

@[simp] theorem tableGet_nil (k : Nat) : tableGet k ([] : List (Nat × α)) = none := rfl

theorem tableGet_cons (k j : Nat) (v : α) (l : List (Nat × α)) :
    tableGet k ((j, v) :: l) = if j = k then some v else tableGet k l := rfl

/-- A look-up that answers has found an entry. -/
theorem mem_of_tableGet {k : Nat} {v : α} {l : List (Nat × α)} (h : tableGet k l = some v) :
    (k, v) ∈ l := by
  induction l with
  | nil => simp at h
  | cons e l ih =>
    obtain ⟨j, w⟩ := e
    rw [tableGet_cons] at h
    split at h
    · next hj => cases h; simp [hj]
    · exact List.mem_cons_of_mem _ (ih h)

/-- A look-up fails exactly where no entry has the key. -/
theorem tableGet_eq_none_iff {k : Nat} {l : List (Nat × α)} :
    tableGet k l = none ↔ ∀ e ∈ l, e.1 ≠ k := by
  induction l with
  | nil => simp
  | cons e l ih =>
    obtain ⟨j, w⟩ := e
    rw [tableGet_cons]
    split
    · next hj => simp [hj]
    · next hj => simp [ih, hj]

@[simp] theorem tableGet_tableSet_self (k : Nat) (v : α) (l : List (Nat × α)) :
    tableGet k (tableSet k v l) = some v := by
  induction l with
  | nil => simp [tableSet, tableGet_cons]
  | cons e l ih =>
    obtain ⟨j, w⟩ := e
    simp only [tableSet]
    split
    · simp [tableGet_cons]
    · split
      · simp [tableGet_cons]
      · next _ hne => simp [tableGet_cons, ih, Ne.symm hne]

theorem tableGet_tableSet_of_ne {k i : Nat} (h : i ≠ k) (v : α) (l : List (Nat × α)) :
    tableGet i (tableSet k v l) = tableGet i l := by
  induction l with
  | nil => simp [tableSet, tableGet_cons, Ne.symm h]
  | cons e l ih =>
    obtain ⟨j, w⟩ := e
    simp only [tableSet]
    split
    · simp [tableGet_cons, Ne.symm h]
    · split
      · next _ hk => subst hk; simp [tableGet_cons, Ne.symm h]
      · simp [tableGet_cons, ih]

@[simp] theorem tableGet_tableErase_self (k : Nat) (l : List (Nat × α)) :
    tableGet k (tableErase k l) = none := by
  rw [tableGet_eq_none_iff]
  simp [tableErase]

theorem tableGet_tableErase_of_ne {k i : Nat} (h : i ≠ k) (l : List (Nat × α)) :
    tableGet i (tableErase k l) = tableGet i l := by
  induction l with
  | nil => rfl
  | cons e l ih =>
    obtain ⟨j, w⟩ := e
    by_cases hj : j = k
    · subst hj
      simpa [tableErase, tableGet_cons, Ne.symm h] using ih
    · simpa [tableErase, tableGet_cons, hj] using congrArg (fun x => if j = i then some w else x) ih

/-- Erasing keeps no new entry. -/
theorem mem_of_mem_tableErase {k : Nat} {e : Nat × α} {l : List (Nat × α)} (h : e ∈ tableErase k l) :
    e ∈ l := (List.mem_filter.mp h).1

/-- Setting adds at most the one entry. -/
theorem mem_of_mem_tableSet {k : Nat} {v : α} {e : Nat × α} {l : List (Nat × α)}
    (h : e ∈ tableSet k v l) : e = (k, v) ∨ e ∈ l := by
  induction l with
  | nil => exact .inl (by simpa [tableSet] using h)
  | cons d l ih =>
    obtain ⟨j, w⟩ := d
    simp only [tableSet] at h
    split at h
    · simpa using h
    · split at h
      · rcases List.mem_cons.mp h with rfl | h
        · exact .inl rfl
        · exact .inr (List.mem_cons_of_mem _ h)
      · rcases List.mem_cons.mp h with rfl | h
        · exact .inr List.mem_cons_self
        · exact (ih h).imp_right (List.mem_cons_of_mem _)

theorem risingKeys_tableErase {l : List (Nat × α)} (k : Nat) (h : risingKeys l) :
    risingKeys (tableErase k l) := h.filter _

theorem risingKeys_tableSet {l : List (Nat × α)} (k : Nat) (v : α) (h : risingKeys l) :
    risingKeys (tableSet k v l) := by
  induction l with
  | nil => simp [tableSet, risingKeys]
  | cons d l ih =>
    obtain ⟨j, w⟩ := d
    obtain ⟨hj, hl⟩ := List.pairwise_cons.mp h
    simp only [tableSet]
    split
    · next hlt =>
      refine List.pairwise_cons.mpr ⟨fun e he => ?_, h⟩
      rcases List.mem_cons.mp he with rfl | he
      · exact hlt
      · exact Nat.lt_trans hlt (hj e he)
    · split
      · next _ hk => exact List.pairwise_cons.mpr ⟨by simpa [hk] using hj, hl⟩
      · next hlt hne =>
        refine List.pairwise_cons.mpr ⟨fun e he => ?_, ih hl⟩
        rcases mem_of_mem_tableSet he with rfl | he
        · show j < k
          omega
        · exact hj e he

/-- Mapping the values keeps the keys. -/
theorem risingKeys_map {l : List (Nat × α)} (f : Nat × α → α) (h : risingKeys l) :
    risingKeys (l.map fun e => (e.1, f e)) := by
  simpa [risingKeys, List.pairwise_map] using h

theorem tableGet_map (f : α → α) (k : Nat) (l : List (Nat × α)) :
    tableGet k (l.map fun e => (e.1, f e.2)) = (tableGet k l).map f := by
  induction l with
  | nil => rfl
  | cons d l ih =>
    obtain ⟨j, w⟩ := d
    simp only [List.map_cons, tableGet_cons, ih]
    split <;> rfl

/-- With rising keys an entry is what the look-up finds. -/
theorem tableGet_of_mem {l : List (Nat × α)} (h : risingKeys l) {k : Nat} {v : α} (hm : (k, v) ∈ l) :
    tableGet k l = some v := by
  induction l with
  | nil => simp at hm
  | cons d l ih =>
    obtain ⟨j, w⟩ := d
    obtain ⟨hj, hl⟩ := List.pairwise_cons.mp h
    rw [tableGet_cons]
    rcases List.mem_cons.mp hm with he | hm
    · cases he; simp
    · have := hj _ hm
      rw [if_neg (by simp at this; omega)]
      exact ih hl hm

end Sys2Proof.Machine
end

