-- ==== Sys2Proof/Laws/Exec.lean ====
section
/-! SUPPORT. How an operation can end. Every way a transaction ends goes through `deliver`, so one lemma says what any
operation does to the state: it answers the channel being served, and may draw a free value. -/

namespace Sys2Proof.Machine

/-- While a channel is served, delivering answers that channel. -/
theorem deliver_eq {s : State} {c : Nat} (h : s.serving = some c) (p : Response) :
    deliver p s = .next (s.answer c p) := by
  simp [deliver, h]

theorem returnWord_eq {n : Nat} {s : State} {c : Nat} (h : s.serving = some c) (w : ResultWidth)
    (r : BitVec n) (sgn : Bool) :
    returnWord w r sgn s = .next (s.answer c (okResponse w r sgn)) := deliver_eq h _

theorem returnKeyed_stable {n : Nat} {s : State} {c : Nat} (h : s.serving = some c) (w : ResultWidth)
    (r : BitVec n) (sgn : Bool) {t : Transaction} (ht : t.keyChanged = false) :
    returnKeyed w r sgn t s = .next (s.answer c (okResponse w r sgn)) := by
  simp [returnKeyed, ht, deliver_eq h]

theorem returnKeyed_changed {n : Nat} {s : State} {c : Nat} (h : s.serving = some c) (w : ResultWidth)
    (r : BitVec n) (sgn : Bool) {t : Transaction} (ht : t.keyChanged = true) :
    returnKeyed w r sgn t s
      = .next (s.drawn.answer c (okResponse w ((Config.freeResult s.freeDraws).setWidth n) sgn)) := by
  simp only [returnKeyed, ht, if_true]
  exact deliver_eq (s := s.drawn) h _

theorem raise_eq {s : State} {c : Nat} (h : s.serving = some c) (e : Status) :
    raise e s = .next (s.drawn.answer c (errorResponse e s.freeDraws)) :=
  deliver_eq (s := s.drawn) h _

/-- A transaction is current only while its channel is served. -/
theorem State.current_eq_some {s : State} {t : Transaction} (h : s.current = some t) :
    ∃ c, s.serving = some c ∧ tableGet c s.channels = some t := by
  unfold State.current at h
  exact Option.bind_eq_some_iff.mp h

theorem State.current_of_serving {s : State} {c : Nat} {t : Transaction} (h : s.serving = some c)
    (ht : tableGet c s.channels = some t) : s.current = some t := by
  simp [State.current, h, ht]

/-- An outcome answers the channel being served: the next state is the state with one response delivered
there, a free value drawn or not. -/
def Answers (s : State) (o : Host.Outcome State Fault Refusal) : Prop :=
  ∃ c p, s.serving = some c ∧ (o = .next (s.answer c p) ∨ o = .next (s.drawn.answer c p))

theorem raise_answers {s : State} {c : Nat} (h : s.serving = some c) (e : Status) :
    Answers s (raise e s) := ⟨c, _, h, .inr (raise_eq h e)⟩

theorem returnWord_answers {n : Nat} {s : State} {c : Nat} (h : s.serving = some c) (w : ResultWidth)
    (r : BitVec n) (sgn : Bool) : Answers s (returnWord w r sgn s) := ⟨c, _, h, .inl (returnWord_eq h w r sgn)⟩

theorem returnKeyed_answers {n : Nat} {s : State} {c : Nat} (h : s.serving = some c) (w : ResultWidth)
    (r : BitVec n) (sgn : Bool) (t : Transaction) : Answers s (returnKeyed w r sgn t s) := by
  cases ht : t.keyChanged with
  | false => exact ⟨c, _, h, .inl (returnKeyed_stable h w r sgn ht)⟩
  | true => exact ⟨c, _, h, .inr (returnKeyed_changed h w r sgn ht)⟩

/-- While a transaction is current every operation answers it. -/
theorem exec_answers (i : Instr) {s : State} {t : Transaction} (h : s.current = some t) :
    Answers s (exec i s) := by
  obtain ⟨c, hc, -⟩ := State.current_eq_some h
  cases i with
  | fmix32 =>
    simp only [exec, execFmix32, h]
    split
    · exact raise_answers hc _
    · exact returnWord_answers hc _ _ _
  | fmix64 =>
    simp only [exec, execFmix64, h]
    exact returnWord_answers hc _ _ _
  | hash32 sgn =>
    simp only [exec, execHash32, h]
    exact returnKeyed_answers hc _ _ _ _
  | hash128x64 sgn =>
    simp only [exec, execHash128x64, h]
    exact returnKeyed_answers hc _ _ _ _
  | hash sgn =>
    simp only [exec, execHash, h]
    split
    · exact returnKeyed_answers hc _ _ _ _
    · exact returnKeyed_answers hc _ _ _ _
    · exact raise_answers hc _

/-- With no transaction current every operation faults: the only stop of a meaning. -/
theorem exec_noTransaction (i : Instr) {s : State} (h : s.current = none) :
    exec i s = .fault .noTransaction := by
  cases i <;> simp [exec, execFmix32, execFmix64, execHash32, execHash128x64, execHash, h]

end Sys2Proof.Machine
end

