-- ==== Sys2Proof/Laws/Key.lean ====
section
/-! SUPPORT. Key words: the value and the bits of `memReadNat`, of the words read with it, and of a packed tail. -/

namespace Sys2Proof.Machine

theorem memReadNat_lt (K : Nat → Byte) (i n : Nat) : memReadNat K i n < 2 ^ (8 * n) := by
  induction n with
  | zero => simp [memReadNat]
  | succ n ih =>
    have hb := (K (i + n)).isLt
    simp only [memReadNat]
    rw [show 8 * (n + 1) = 8 * n + 8 by ring, pow_add]
    nlinarith [Nat.two_pow_pos (8 * n)]

/-- The bytes of the sum of R14. -/
theorem memReadNat_byte (K : Nat → Byte) (i : Nat) {n j : Nat} (h : j < n) :
    memReadNat K i n / 2 ^ (8 * j) % 256 = (K (i + j)).toNat := by
  induction n with
  | zero => omega
  | succ n ih =>
    have hb := (K (i + j)).isLt
    simp only [memReadNat]
    by_cases hj : j = n
    · subst hj
      rw [Nat.add_mul_div_right _ _ (Nat.two_pow_pos _), Nat.div_eq_of_lt (memReadNat_lt K i j)]
      omega
    · rw [← ih (by omega)]
      have hsplit : 2 ^ (8 * n) = 2 ^ (8 * j) * (256 * 2 ^ (8 * (n - j - 1))) := by
        rw [show (256 : Nat) = 2 ^ 8 by norm_num, ← pow_add, ← pow_add]
        congr 1
        omega
      rw [hsplit, show (K (i + n)).toNat * (2 ^ (8 * j) * (256 * 2 ^ (8 * (n - j - 1))))
          = 256 * ((K (i + n)).toNat * 2 ^ (8 * (n - j - 1))) * 2 ^ (8 * j) by ring,
        Nat.add_mul_div_right _ _ (Nat.two_pow_pos _)]
      omega

theorem memReadNat_add (K : Nat → Byte) (i m n : Nat) :
    memReadNat K i (m + n) = memReadNat K i m + memReadNat K (i + m) n * 2 ^ (8 * m) := by
  induction n with
  | zero => simp [memReadNat]
  | succ n ih =>
    rw [← Nat.add_assoc]
    simp only [memReadNat, ih, Nat.add_assoc]
    ring

/-- The sum depends on the bytes it reads only. -/
theorem memReadNat_congr {K K' : Nat → Byte} {i i' n : Nat} (h : ∀ j, j < n → K (i + j) = K' (i' + j)) :
    memReadNat K i n = memReadNat K' i' n := by
  induction n with
  | zero => rfl
  | succ n ih =>
    simp only [memReadNat]
    rw [ih fun j hj => h j (by omega), h n (by omega)]

theorem memRead32_toNat (K : Nat → Byte) (i : Nat) : (memRead32 K i).toNat = memReadNat K i 4 := by
  rw [memRead32, BitVec.toNat_ofNat, Nat.mod_eq_of_lt (memReadNat_lt K i 4)]

theorem memRead64_toNat (K : Nat → Byte) (i : Nat) : (memRead64 K i).toNat = memReadNat K i 8 := by
  rw [memRead64, BitVec.toNat_ofNat, Nat.mod_eq_of_lt (memReadNat_lt K i 8)]

/-- The bits of a packed tail: bit `i` is bit `i % 8` of byte `i / 8`, and 0 beyond the tail. -/
theorem getLsbD_packTail (w : Nat) (K : Nat → Byte) (base n i : Nat) :
    (packTail w K base n).getLsbD i
      = (decide (i < w) && (decide (i / 8 < n) && (K (base + i / 8)).getLsbD (i % 8))) := by
  induction n with
  | zero => simp [packTail]
  | succ n ih =>
    simp only [packTail, BitVec.getLsbD_or, ih, BitVec.getLsbD_shiftLeft, BitVec.getLsbD_setWidth]
    by_cases hw : i < w
    · rcases Nat.lt_trichotomy (i / 8) n with h | h | h
      · simp [hw, h, show i < 8 * n by omega, show i / 8 < n + 1 by omega]
      · subst h
        simp [hw, show ¬ i < 8 * (i / 8) by omega, show i - 8 * (i / 8) = i % 8 by omega,
          show i % 8 < w by omega]
      · have : (K (base + n)).getLsbD (i - 8 * n) = false := BitVec.getLsbD_of_ge _ _ (by omega)
        simp [this, show ¬ i / 8 < n by omega, show ¬ i / 8 < n + 1 by omega]
    · simp [hw]

/-- The bits of a little-endian word of a list. -/
theorem getLsbD_leWord (w : Nat) (bs : List Byte) (i : Nat) :
    (leWord w bs).getLsbD i = (decide (i < w) && (bs.getD (i / 8) 0).getLsbD (i % 8)) := by
  induction bs generalizing i with
  | nil => simp [leWord]
  | cons b bs ih =>
    have hcons : leWord w (b :: bs) = b.setWidth w ||| leWord w bs <<< 8 := rfl
    rw [hcons, BitVec.getLsbD_or, BitVec.getLsbD_shiftLeft, BitVec.getLsbD_setWidth, ih]
    by_cases hw : i < w
    · by_cases h8 : i < 8
      · simp [hw, h8, show i / 8 = 0 by omega, Nat.mod_eq_of_lt h8]
      · have hb : b.getLsbD i = false := BitVec.getLsbD_of_ge _ _ (by omega)
        obtain ⟨q, hq⟩ : ∃ q, i / 8 = q + 1 := ⟨i / 8 - 1, by omega⟩
        simp [hw, h8, hb, hq, show i - 8 < w by omega, show (i - 8) / 8 = q by omega,
          show (i - 8) % 8 = i % 8 by omega]
    · simp [hw]

/-- The bits of a 32-bit key word. -/
theorem getLsbD_memRead32 (K : Nat → Byte) (a i : Nat) :
    (memRead32 K a).getLsbD i = (decide (i < 32) && (K (a + i / 8)).getLsbD (i % 8)) := by
  by_cases h : i < 32
  · have hbyte := memReadNat_byte K a (n := 4) (j := i / 8) (by omega)
    have htest : (memReadNat K a 4).testBit i
        = (memReadNat K a 4 / 2 ^ (8 * (i / 8)) % 256).testBit (i % 8) := by
      rw [show (256 : Nat) = 2 ^ 8 by norm_num, Nat.testBit_mod_two_pow, Nat.testBit_div_two_pow,
        show i % 8 + 8 * (i / 8) = i by omega]
      simp [show i % 8 < 8 by omega]
    rw [hbyte] at htest
    simpa [h, BitVec.getLsbD, memRead32_toNat] using htest
  · simp [h, BitVec.getLsbD_of_ge _ i (by omega : 32 ≤ i)]

/-- The bits of a 64-bit key word. -/
theorem getLsbD_memRead64 (K : Nat → Byte) (a i : Nat) :
    (memRead64 K a).getLsbD i = (decide (i < 64) && (K (a + i / 8)).getLsbD (i % 8)) := by
  by_cases h : i < 64
  · have hbyte := memReadNat_byte K a (n := 8) (j := i / 8) (by omega)
    have htest : (memReadNat K a 8).testBit i
        = (memReadNat K a 8 / 2 ^ (8 * (i / 8)) % 256).testBit (i % 8) := by
      rw [show (256 : Nat) = 2 ^ 8 by norm_num, Nat.testBit_mod_two_pow, Nat.testBit_div_two_pow,
        show i % 8 + 8 * (i / 8) = i by omega]
      simp [show i % 8 < 8 by omega]
    rw [hbyte] at htest
    simpa [h, BitVec.getLsbD, memRead64_toNat] using htest
  · simp [h, BitVec.getLsbD_of_ge _ i (by omega : 64 ≤ i)]

end Sys2Proof.Machine
end

