-- ==== Sys2Proof/Laws/Memory.lean ====
section
/-! SUPPORT. Key memory: what a byte reads as after a write, and that every memory operation keeps the canonical
form. The only operation that changes memory is `Memory.write`, called by `keyWrite`. -/

namespace Sys2Proof.Machine

@[simp] theorem Memory.read_nil (a : Nat) : Memory.read [] a = Config.unlistedByte := rfl

@[simp] theorem Memory.read_write_self (m : Memory) (a : Nat) (b : Byte) : (m.write a b).read a = b := by
  unfold Memory.write Memory.read
  split
  · next h => simp [h]
  · simp

theorem Memory.read_write_of_ne (m : Memory) {a i : Nat} (h : i ≠ a) (b : Byte) :
    (m.write a b).read i = m.read i := by
  unfold Memory.write Memory.read
  split
  · rw [tableGet_tableErase_of_ne h]
  · rw [tableGet_tableSet_of_ne h]

/-- Writing keeps the canonical form. -/
theorem Memory.write_wf {m : Memory} (h : Memory.wf m) (a : Nat) (b : Byte) : Memory.wf (m.write a b) := by
  unfold Memory.write
  split
  · exact ⟨risingKeys_tableErase a h.1, fun e he => h.2 e (mem_of_mem_tableErase he)⟩
  · next hb =>
    refine ⟨risingKeys_tableSet a b h.1, fun e he => ?_⟩
    rcases mem_of_mem_tableSet he with rfl | he
    · exact hb
    · exact h.2 e he

theorem State.reset_mem_wf : Memory.wf State.reset.mem := by decide

/-- Two offsets of 32 bits name the same place only if the views and the offsets are equal. -/
theorem keyAddr_inj {v v' i i' : Nat} (hi : i < 2 ^ 32) (hi' : i' < 2 ^ 32)
    (h : keyAddr v i = keyAddr v' i') : v = v' ∧ i = i' := by
  unfold keyAddr at h
  omega

end Sys2Proof.Machine
end

