-- ==== Sys2Proof/Laws/PerInstr.lean ====
section
/-! SUPPORT. Statements made for every operation, one lemma per constructor. -/

/-- The three fields of R60 as the encoder lays them out: OP, SGN, and RSV = 0. -/
def Sys2Proof.Laws.EncodedFields.Statement (i : Sys2Proof.Instr) : Prop :=
  Sys2Proof.cmdOp (Sys2Proof.encode i) = i.op
    ∧ Sys2Proof.cmdSgn (Sys2Proof.encode i) = i.sgn
    ∧ Sys2Proof.cmdRsv (Sys2Proof.encode i) = 0

theorem Sys2Proof.Laws.EncodedFields.fmix32 :
    Sys2Proof.Laws.EncodedFields.Statement .fmix32 := ⟨by decide, by decide, by decide⟩

theorem Sys2Proof.Laws.EncodedFields.fmix64 :
    Sys2Proof.Laws.EncodedFields.Statement .fmix64 := ⟨by decide, by decide, by decide⟩

theorem Sys2Proof.Laws.EncodedFields.hash32 (sgn : Bool) :
    Sys2Proof.Laws.EncodedFields.Statement (.hash32 sgn) := by
  cases sgn <;> exact ⟨by decide, by decide, by decide⟩

theorem Sys2Proof.Laws.EncodedFields.hash128x64 (sgn : Bool) :
    Sys2Proof.Laws.EncodedFields.Statement (.hash128x64 sgn) := by
  cases sgn <;> exact ⟨by decide, by decide, by decide⟩

theorem Sys2Proof.Laws.EncodedFields.hash (sgn : Bool) :
    Sys2Proof.Laws.EncodedFields.Statement (.hash sgn) := by
  cases sgn <;> exact ⟨by decide, by decide, by decide⟩
end

