-- ==== Sys2Proof/Laws/Step.lean ====
section
/-! SUPPORT. What a move and a step can do, said once: `respond`, `accept`, `keyWrite`, `step` and a run. -/

namespace Sys2Proof.Machine

theorem respond_idle {c : Nat} {s : State} (h : tableGet c s.channels = none) :
    respond c s = .next s := by
  simp [respond, h]

theorem respond_busy {c : Nat} {s : State} {t : Transaction} {i : Instr}
    (h : tableGet c s.channels = some t) (hd : decode t.req.cmd = .ok i) :
    respond c s = exec i (s.serve c) := by
  simp [respond, h, hd]

theorem respond_illegal {c : Nat} {s : State} {t : Transaction} {e : IllegalCmd}
    (h : tableGet c s.channels = some t) (hd : decode t.req.cmd = .error e) :
    respond c s = .next ((s.serve c).drawn.answer c (errorResponse .illegalCommand s.freeDraws)) := by
  simp only [respond, h, hd, raiseIllegalCommand]
  exact raise_eq (s := s.serve c) rfl _

/-- Answering a Busy channel always succeeds and delivers one response there. -/
theorem respond_answers {c : Nat} {s : State} {t : Transaction} (h : tableGet c s.channels = some t) :
    ∃ p, respond c s = .next ((s.serve c).answer c p)
      ∨ respond c s = .next ((s.serve c).drawn.answer c p) := by
  cases hd : decode t.req.cmd with
  | error e => exact ⟨_, .inr (respond_illegal h hd)⟩
  | ok i =>
    obtain ⟨d, p, hd', ho⟩ := exec_answers i (State.current_of_serving (s := s.serve c) rfl h)
    cases (Option.some.inj hd' : c = d)
    exact ⟨p, by rw [respond_busy h hd]; exact ho⟩

/-- What accepting on channel `c` can do: hold, or find nothing, or make the channel Busy. -/
theorem accept_cases (c : Nat) (s : State) :
    accept c s = s
      ∨ ∃ r rest, tableGet c s.channels = none ∧ takeFirst c s.waiting = some (r, rest)
        ∧ accept c s = { s with channels := tableSet c ⟨r, false⟩ s.channels, waiting := rest } := by
  unfold accept
  split
  · exact .inl rfl
  · next h =>
    split
    · exact .inl rfl
    · next r rest hw => exact .inr ⟨r, rest, h, hw, rfl⟩

/-- What is taken from the waiting requests was the oldest of its channel. -/
theorem takeFirst_eq_some {c : Nat} {l : List (Nat × Request)} {r : Request} {rest : List (Nat × Request)}
    (h : takeFirst c l = some (r, rest)) :
    ∃ before after, l = before ++ (c, r) :: after ∧ rest = before ++ after ∧ ∀ e ∈ before, e.1 ≠ c := by
  induction l generalizing r rest with
  | nil => simp [takeFirst] at h
  | cons d l ih =>
    obtain ⟨j, q⟩ := d
    simp only [takeFirst] at h
    split at h
    · next hj => cases h; exact ⟨[], l, by simp [hj], by simp, by simp⟩
    · next hj =>
      obtain ⟨x, hx, hr⟩ := Option.map_eq_some_iff.mp h
      obtain ⟨q', rest'⟩ := x
      cases hr
      obtain ⟨before, after, rfl, rfl, hb⟩ := ih hx
      refine ⟨(j, q) :: before, after, rfl, rfl, fun e he => ?_⟩
      rcases List.mem_cons.mp he with rfl | he
      · exact hj
      · exact hb e he

/-- After a host's write each channel holds what it held, marked or not. -/
theorem tableGet_keyWrite (v : Nat) (o : W32) (b : Byte) (s : State) (c : Nat) :
    tableGet c (keyWrite v o b s).channels
      = (tableGet c s.channels).map (markKeyChange v o (decide (s.mem.read (keyAddr v o.toNat) ≠ b))) :=
  tableGet_map _ c s.channels

theorem step_of_move {s : State} {m : Move} (h : nextMove s = some m) : step s = doMove m s.pop := by
  simp [step, h]

theorem step_of_idle {s : State} (h : nextMove s = none) : step s = .next s := by
  simp [step, h]

theorem nextMove_cons {s : State} {m : Move} {ms : List Move} (h : s.schedule = m :: ms) :
    nextMove s = some m := by
  simp [nextMove, h]

/-- Nothing is left to do exactly when nothing is scheduled, in progress or waiting. -/
theorem nextMove_eq_none_iff {s : State} :
    nextMove s = none ↔ s.schedule = [] ∧ s.channels = [] ∧ s.waiting = [] := by
  unfold nextMove
  split
  · next h => simp [h]
  · next h =>
    split
    · next h' => simp [h']
    · next h' =>
      split
      · next h'' => simp [h'']
      · next h'' => simp [h, h', h'']

/-- The whole of a step: what each kind of move turns the state into. -/
theorem step_cases {s t : State} (h : step s = .next t) :
    (nextMove s = none ∧ t = s)
    ∨ (∃ c r, nextMove s = some (.present c r) ∧ c < Config.nch
        ∧ t = { s.pop with waiting := s.waiting ++ [(c, r)] })
    ∨ (∃ c, nextMove s = some (.accept c) ∧ t = accept c s.pop)
    ∨ (∃ c, nextMove s = some (.respond c) ∧ tableGet c s.channels = none ∧ t = s.pop)
    ∨ (∃ c tr p, nextMove s = some (.respond c) ∧ tableGet c s.channels = some tr
        ∧ (t = (s.pop.serve c).answer c p ∨ t = (s.pop.serve c).drawn.answer c p))
    ∨ (∃ v o b, nextMove s = some (.keyWrite v o b) ∧ t = keyWrite v o b s.pop)
    ∨ (nextMove s = some .reset ∧ t = resetBlock s.pop) := by
  cases hm : nextMove s with
  | none =>
    rw [step_of_idle hm] at h
    exact .inl ⟨rfl, (Host.Outcome.next.inj h).symm⟩
  | some m =>
    rw [step_of_move hm] at h
    refine .inr ?_
    cases m with
    | present c r =>
      refine .inl ⟨c, r, rfl, ?_⟩
      simp only [doMove, present] at h
      split at h
      · next hc => exact ⟨hc, (Host.Outcome.next.inj h).symm⟩
      · cases h
    | accept c => exact .inr (.inl ⟨c, rfl, (Host.Outcome.next.inj h).symm⟩)
    | respond c =>
      simp only [doMove] at h
      cases hc : tableGet c s.pop.channels with
      | none =>
        rw [respond_idle hc] at h
        exact .inr (.inr (.inl ⟨c, rfl, hc, (Host.Outcome.next.inj h).symm⟩))
      | some tr =>
        obtain ⟨p, hp⟩ := respond_answers hc
        refine .inr (.inr (.inr (.inl ⟨c, tr, p, rfl, hc, hp.imp ?_ ?_⟩))) <;>
        · intro e
          rw [h] at e
          exact Host.Outcome.next.inj e
    | keyWrite v o b =>
      exact .inr (.inr (.inr (.inr (.inl ⟨v, o, b, rfl, (Host.Outcome.next.inj h).symm⟩))))
    | reset => exact .inr (.inr (.inr (.inr (.inr ⟨rfl, (Host.Outcome.next.inj h).symm⟩))))

/-! ### Runs -/

@[simp] theorem run_zero (s : State) : core.run 0 s = .next s := rfl

/-- One step of a run of any machine. -/
theorem hostRun_succ (M : Host.Core) (s : M.State) (k : Nat) :
    M.run (k + 1) s
      = match M.step s with
        | .next t => M.run k t
        | .fault r => .fault r
        | .refused r => .refused r := rfl

theorem run_succ_of_step {s t : State} (k : Nat) (h : step s = .next t) :
    core.run (k + 1) s = core.run k t := by
  have hc : core.step s = .next t := h
  rw [hostRun_succ core s k, hc]

/-- A run of `k + 1` steps that gives a next state gives one after its first step. -/
theorem run_succ_eq_next {s u : State} {k : Nat} (h : core.run (k + 1) s = .next u) :
    ∃ t, step s = .next t ∧ core.run k t = .next u := by
  rw [hostRun_succ core s k] at h
  cases hs : step s with
  | next t =>
    have hc : core.step s = .next t := hs
    rw [hc] at h
    exact ⟨t, rfl, h⟩
  | fault r =>
    have hc : core.step s = .fault r := hs
    rw [hc] at h
    cases h
  | refused r =>
    have hc : core.step s = .refused r := hs
    rw [hc] at h
    cases h

/-- Two runs, one after the other. -/
theorem run_add {s t : State} (j k : Nat) (h : core.run j s = .next t) :
    core.run (j + k) s = core.run k t := by
  induction j generalizing s with
  | zero =>
    rw [run_zero] at h
    cases h
    rw [Nat.zero_add]
  | succ j ih =>
    obtain ⟨v, hv, hr⟩ := run_succ_eq_next h
    rw [show j + 1 + k = j + k + 1 by omega, run_succ_of_step _ hv]
    exact ih hr

end Sys2Proof.Machine
end

