-- ==== Sys2Proof/Laws/Reply.lean ====
section
/-! SUPPORT. The outcome of an operation in closed form: the response, whether a free value was drawn, and the state
that results. Later proofs rewrite with `exec_eq` and `respond_eq` and never unfold a meaning. -/

namespace Sys2Proof.Machine

theorem tableErase_tableSet {α : Type} (k : Nat) (v : α) (l : List (Nat × α)) :
    tableErase k (tableSet k v l) = tableErase k l := by
  induction l with
  | nil => simp [tableSet, tableErase]
  | cons e l ih =>
    obtain ⟨j, w⟩ := e
    simp only [tableSet]
    split
    · simp [tableErase]
    · split
      · next h => subst h; simp [tableErase]
      · next h => simp only [tableErase, List.filter_cons] at *; rw [ih]

/-- The response of an operation that reads the key, and whether its result word is free value number `d`
(R47). -/
def keyedReply {n : Nat} (w : ResultWidth) (r : BitVec n) (sgn changed : Bool) (d : Nat) : Response × Bool :=
  if changed then (okResponse w ((Config.freeResult d).setWidth n) sgn, true)
  else (okResponse w r sgn, false)

/-- The response of an operation to a transaction, and whether it draws free value number `d`. -/
def instrReply (i : Instr) (t : Transaction) (m : Memory) (d : Nat) : Response × Bool :=
  match i with
  | .fmix32 =>
    if argHigh t.req ≠ 0 then (errorResponse .illegalOperand d, true)
    else (okResponse .w32 (fmix32 (operandFmix32 t.req)) false, false)
  | .fmix64 => (okResponse .w64 (fmix64 (operandFmix64 t.req)) false, false)
  | .hash32 sgn =>
    keyedReply .w32 (hash32 (keyByte m t.req) (keyLength t.req) t.req.seed) sgn t.keyChanged d
  | .hash128x64 sgn =>
    keyedReply .w128 (hash128x64 (keyByte m t.req) (keyLength t.req) t.req.seed) sgn t.keyChanged d
  | .hash sgn =>
    match hashWidth t.req with
    | some .width32 =>
      keyedReply .w32 (hash32 (keyByte m t.req) (keyLength t.req) t.req.seed) sgn t.keyChanged d
    | some .width128 =>
      keyedReply .w128 (hash128x64 (keyByte m t.req) (keyLength t.req) t.req.seed) sgn t.keyChanged d
    | none => (errorResponse .invalidWidth d, true)

/-- The state in which a reply has been delivered on channel `c`. -/
def State.replied (s : State) (c : Nat) (x : Response × Bool) : State :=
  { s with
    channels := tableErase c s.channels
    responses := s.responses ++ [(c, x.1)]
    serving := none
    freeDraws := if x.2 then s.freeDraws + 1 else s.freeDraws }

theorem returnKeyed_eq {n : Nat} {s : State} {c : Nat} (h : s.serving = some c) (w : ResultWidth)
    (r : BitVec n) (sgn : Bool) (t : Transaction) :
    returnKeyed w r sgn t s = .next (s.replied c (keyedReply w r sgn t.keyChanged s.freeDraws)) := by
  cases ht : t.keyChanged with
  | false => rw [returnKeyed_stable h w r sgn ht]; rfl
  | true => rw [returnKeyed_changed h w r sgn ht]; rfl

/-- What an operation does while its transaction is served. -/
theorem exec_eq (i : Instr) {s : State} {c : Nat} {t : Transaction} (hs : s.serving = some c)
    (ht : tableGet c s.channels = some t) :
    exec i s = .next (s.replied c (instrReply i t s.mem s.freeDraws)) := by
  have hc := State.current_of_serving hs ht
  cases i with
  | fmix32 =>
    simp only [exec, execFmix32, hc, instrReply]
    split
    · rw [raise_eq hs]; rfl
    · rw [returnWord_eq hs]; rfl
  | fmix64 => simp only [exec, execFmix64, hc, instrReply]; rw [returnWord_eq hs]; rfl
  | hash32 sgn => simp only [exec, execHash32, hc, instrReply]; rw [returnKeyed_eq hs]
  | hash128x64 sgn => simp only [exec, execHash128x64, hc, instrReply]; rw [returnKeyed_eq hs]
  | hash sgn =>
    simp only [exec, execHash, hc, instrReply]
    cases hashWidth t.req with
    | none => exact raise_eq hs _
    | some w =>
      cases w with
      | width32 => exact returnKeyed_eq hs _ _ _ _
      | width128 => exact returnKeyed_eq hs _ _ _ _

/-- An operation gives a next state only so. -/
theorem exec_eq_next {i : Instr} {s s' : State} (h : exec i s = .next s') :
    ∃ c t, s.serving = some c ∧ tableGet c s.channels = some t
      ∧ s' = s.replied c (instrReply i t s.mem s.freeDraws) := by
  cases hc : s.current with
  | none => rw [exec_noTransaction i hc] at h; cases h
  | some t =>
    obtain ⟨c, hs, ht⟩ := State.current_eq_some hc
    rw [exec_eq i hs ht] at h
    exact ⟨c, t, hs, ht, (Host.Outcome.next.inj h).symm⟩

/-- The reply to a transaction, its command word decoded first (R144). Irreducible, so that no proof compares
two replies by computing hashes. -/
@[irreducible] def reply (t : Transaction) (m : Memory) (d : Nat) : Response × Bool :=
  match decode t.req.cmd with
  | .error _ => (errorResponse .illegalCommand d, true)
  | .ok i => instrReply i t m d

/-- What answering a Busy channel does. -/
theorem respond_eq {s : State} {c : Nat} {t : Transaction} (ht : tableGet c s.channels = some t) :
    respond c s = .next (s.replied c (reply t s.mem s.freeDraws)) := by
  unfold reply
  cases hd : decode t.req.cmd with
  | error e => rw [respond_illegal ht hd]; rfl
  | ok i => rw [respond_busy ht hd, exec_eq i (s := s.serve c) rfl ht]; rfl

/-- A step that answers a Busy channel. -/
theorem step_respond_eq {s : State} {c : Nat} {t : Transaction} (hm : nextMove s = some (.respond c))
    (ht : tableGet c s.channels = some t) :
    step s = .next (s.pop.replied c (reply t s.mem s.freeDraws)) := by
  rw [step_of_move hm]
  exact respond_eq (s := s.pop) ht

end Sys2Proof.Machine
end

