-- ==== Sys2Proof/Laws/Word.lean ====
section
/-! SUPPORT. The operators of the finalizers and block steps as arithmetic in natural numbers (R9, R10, R11). -/

namespace Sys2Proof.Machine

theorem toNat_xorShift {n : Nat} (x : BitVec n) (s : Nat) :
    (x ^^^ (x >>> s)).toNat = natXorShift s x.toNat := by
  rw [BitVec.toNat_xor, BitVec.toNat_ushiftRight, Nat.shiftRight_eq_div_pow]
  rfl

theorem toNat_mul_ofNat {n : Nat} (x : BitVec n) {c : Nat} (hc : c < 2 ^ n) :
    (x * BitVec.ofNat n c).toNat = natMul n c x.toNat := by
  rw [BitVec.toNat_mul, BitVec.toNat_ofNat, Nat.mod_eq_of_lt hc]
  rfl

theorem toNat_rotl {n : Nat} (x : BitVec n) {r : Nat} (hr : r < n) :
    (rotl x r).toNat = natRotl n r x.toNat := by
  have hx := x.isLt
  have hlow : x.toNat / 2 ^ (n - r) < 2 ^ r := by
    rw [Nat.div_lt_iff_lt_mul (Nat.two_pow_pos _), ← pow_add]
    rwa [show r + (n - r) = n by omega]
  have hhigh : x.toNat * 2 ^ r % 2 ^ n = x.toNat % 2 ^ (n - r) * 2 ^ r := by
    conv_lhs => rw [show 2 ^ n = 2 ^ (n - r) * 2 ^ r by rw [← pow_add]; congr 1; omega]
    rw [Nat.mul_mod_mul_right]
  simp only [rotl, natRotl, BitVec.toNat_or, BitVec.toNat_shiftLeft, BitVec.toNat_ushiftRight,
    Nat.shiftLeft_eq, Nat.shiftRight_eq_div_pow]
  rw [hhigh, ← Nat.shiftLeft_eq, Nat.shiftLeft_add_eq_or_of_lt hlow]

theorem toNat_mul5_add {n : Nat} (x : BitVec n) {c : Nat} (hc : c < 2 ^ n) (h5 : 5 < 2 ^ n) :
    (x * BitVec.ofNat n 5 + BitVec.ofNat n c).toNat = natMulAdd5 n c x.toNat := by
  rw [BitVec.toNat_add, BitVec.toNat_mul, BitVec.toNat_ofNat, BitVec.toNat_ofNat, Nat.mod_eq_of_lt hc,
    Nat.mod_eq_of_lt h5, natMulAdd5]
  simp

end Sys2Proof.Machine
end

