-- ==== Sys2Proof/Tests/Slice0.lean ====
section
/-! SUPPORT. Tests. Expected values come from spec/95_test_vectors.md (its section stands beside each test) or from
the rule named; none is the model's own answer. The second part holds the witnesses: for each statement with
hypotheses, concrete states and operands that meet them. -/

namespace Sys2Proof.Tests

open Sys2Proof Sys2Proof.Machine

/-! ### Helpers -/

/-- Key memory with `bs` in view 0 from offset `i` on. -/
def keyMem : Nat → List Byte → Memory
  | _, [] => []
  | i, b :: bs => (keyMem (i + 1) bs).write (keyAddr 0 i) b

/-- A request for view 0 with every field given. -/
def req (cmd : W32) (arg : W64) (seed width klen : W32) : Request :=
  { cmd := cmd, arg := arg, seed := seed, width := width, klen := klen, view := 0 }

/-- Channel 0 Busy with a request, its key in memory, and its response next. -/
def busy (r : Request) (key : List Byte) : State :=
  { State.reset with channels := [(0, ⟨r, false⟩)], mem := keyMem 0 key, schedule := [.respond 0] }

/-- The same, its operation about to be carried out; the key changed or not. -/
def serving (r : Request) (changed : Bool) (key : List Byte) : State :=
  { State.reset with channels := [(0, ⟨r, changed⟩)], mem := keyMem 0 key, serving := some 0 }

/-- The last response of an outcome. -/
def lastResponse : Host.Outcome State Fault Refusal → Option Response
  | .next s => s.responses.getLast?.map (·.2)
  | .fault _ => none
  | .refused _ => none

/-- STATUS, RESULT, RWIDTH and RSGN of the one step that answers a request. -/
def answer (r : Request) (key : List Byte) : Option (Nat × Nat × Nat × Nat) :=
  (lastResponse (step (busy r key))).map fun p =>
    (p.status.toNat, p.result.toNat, p.rwidth.toNat, p.rsgn.toNat)

/-- The STATUS of that response. -/
def statusOf (r : Request) (key : List Byte) : Option Nat :=
  (lastResponse (step (busy r key))).map fun p => p.status.toNat

/-- The bytes 01, 02, … of the spec's tail-boundary vectors. -/
def countingKey (n : Nat) : List Byte := (List.range n).map fun i => BitVec.ofNat 8 (i + 1)

/-- "foo", "bar" and "baz", written out by character code. -/
def foo : List Byte := [0x66, 0x6f, 0x6f]
def bar : List Byte := [0x62, 0x61, 0x72]
def baz : List Byte := [0x62, 0x61, 0x7a]

/-- A line of text assembled for view 0. -/
def assembleText (line : String) : Option Request := (parseLine line.toList).bind (assemble 0)

/-! ### Decoding: words written out from R60 and R62 -/

theorem test_decode_fmix32 : decode 0b00000000000000000000000000000000 = .ok .fmix32 := by decide

theorem test_decode_fmix64 : decode 0b00000000000000000000000000000001 = .ok .fmix64 := by decide

theorem test_decode_hash32 :
    decode 0b00000000000000000000000000000010 = .ok (.hash32 false)
      ∧ decode 0b00000000000000000000000000001010 = .ok (.hash32 true) := by decide

theorem test_decode_hash128x64 :
    decode 0b00000000000000000000000000000011 = .ok (.hash128x64 false)
      ∧ decode 0b00000000000000000000000000001011 = .ok (.hash128x64 true) := by decide

theorem test_decode_hash :
    decode 0b00000000000000000000000000000100 = .ok (.hash false)
      ∧ decode 0b00000000000000000000000000001100 = .ok (.hash true) := by decide

/-- 95_test_vectors.md section 3.7, the words that end in ILLEGAL_COMMAND. -/
theorem test_decode_illegal :
    ([0x5, 0x6, 0x7, 0xD, 0xE, 0xF] : List W32).all (fun w => decode w = .error .reservedOp) = true
      ∧ ([0x8, 0x9] : List W32).all (fun w => decode w = .error .signedFinalizer) = true
      ∧ ([0x10, 0x80000002, 0xFFFFFFFF] : List W32).all (fun w => decode w = .error .reservedBits) = true := by
  decide

/-- R62's list of words, encoded. -/
theorem test_encode :
    encode .fmix32 = 0x00000000 ∧ encode .fmix64 = 0x00000001
      ∧ encode (.hash32 false) = 0x00000002 ∧ encode (.hash32 true) = 0x0000000A
      ∧ encode (.hash128x64 false) = 0x00000003 ∧ encode (.hash128x64 true) = 0x0000000B
      ∧ encode (.hash false) = 0x00000004 ∧ encode (.hash true) = 0x0000000C := by decide

theorem test_decodeTableWord :
    decodeTableWord 32 0 = some .fmix32 ∧ decodeTableWord 32 0xB = some (.hash128x64 true)
      ∧ decodeTableWord 32 0xD = none ∧ decodeTableWord 40 0x100000002 = none := by decide

/-! ### Well-formedness: an ill-formed term for each check, which the check refuses -/

/-- Every operation term is well formed: SGN is its only operand, and a finalizer has none. -/
theorem test_wellFormed_all :
    ([.fmix32, .fmix64, .hash32 true, .hash128x64 false, .hash true] : List Instr).all Instr.wellFormed
      = true := by decide

theorem test_cmdLegal_refuses_op : cmdLegal 0x5 = false := by decide

theorem test_cmdLegal_refuses_rsv : cmdLegal 0x12 = false := by decide

theorem test_cmdLegal_refuses_sgn : cmdLegal 0x9 = false := by decide

theorem test_legal_refuses_cmd : (req 0x8 0 0 0 0).legal = false := by decide

theorem test_legal_refuses_arg :
    (req 0 0x100000000 0 0 0).legal = false ∧ (req 1 0x100000000 0 0 0).legal = true := by decide

theorem test_memory_refuses_order : ¬ Memory.wf [(5, 1), (5, 2)] ∧ ¬ Memory.wf [(6, 1), (5, 2)] := by decide

theorem test_memory_refuses_unlisted : ¬ Memory.wf [(5, 0)] := by decide

/-! ### FMIX32 (sections 2 and 3.1) -/

theorem test_fmix32 :
    answer (req 0 0 0 0 0) [] = some (0, 0, 0, 0)
      ∧ answer (req 0 1 0 0 0) [] = some (0, 0x514E28B7, 0, 0)
      ∧ answer (req 0 5 0 0 0) [] = some (0, 0xCC0D53CD, 0, 0)
      ∧ answer (req 0 0xFFFFFFFF 0 0 0) [] = some (0, 0x81F16F39, 0, 0)
      ∧ answer (req 0 0x80000000 0 0 0) [] = some (0, 0x6D3C65A0, 0, 0) := by decide

theorem test_fmix32_errors :
    statusOf (req 0 0x100000000 0 0 0) [] = some 3 ∧ statusOf (req 0x8 1 0 0 0) [] = some 2
      ∧ statusOf (req 0x8 0x100000000 0 0 0) [] = some 2 := by decide

/-! ### FMIX64 (section 3.2) -/

theorem test_fmix64 :
    answer (req 1 0 0 0 0) [] = some (0, 0, 1, 0)
      ∧ answer (req 1 1 0 0 0) [] = some (0, 0xB456BCFC34C2CB2C, 1, 0)
      ∧ answer (req 1 0x100000000 0 0 0) [] = some (0, 0xBA3A9E160A5F1419, 1, 0)
      ∧ answer (req 1 0x8000000000000000 0 0 0) [] = some (0, 0x8F780810AF31A493, 1, 0)
      ∧ answer (req 1 0xFFFFFFFFFFFFFFFF 0 0 0) [] = some (0, 0x64B5720B4B825F21, 1, 0) := by decide

theorem test_fmix64_signed : statusOf (req 0x9 1 0 0 0) [] = some 2 := by decide

/-! ### HASH32 (sections 2 and 3.3) -/

theorem test_hash32 :
    answer (req 0x2 0 0 0 0) [] = some (0, 0, 0, 0)
      ∧ answer (req 0x2 0 0x9747B28C 0 1) (countingKey 1) = some (0, 0xB8EF150D, 0, 0)
      ∧ answer (req 0x2 0 0 0 2) (countingKey 2) = some (0, 0x64C7667E, 0, 0)
      ∧ answer (req 0x2 0 0 0 4) (countingKey 4) = some (0, 0x3E349DA5, 0, 0)
      ∧ answer (req 0x2 0 0 0 17) (countingKey 17) = some (0, 0xE4E97D6E, 0, 0) := by decide

/-- SGN only sets RSGN; ARG and WIDTH are not read, and bytes beyond KLEN are not (R64, R46). -/
theorem test_hash32_signed :
    answer (req 0xA 0 100 0 3) bar = some (0, 0x041061A1, 0, 1)
      ∧ answer (req 0xA 7 0 64 3) (foo ++ [0xFF]) = some (0, 0xF6A5C420, 0, 1)
      ∧ answer (req 0x2 0 0xFFFFFFFF 0 3) [0xFF, 0xFF, 0xFF] = some (0, 0x83E7BF6B, 0, 0) := by decide

/-! ### HASH128X64 (section 3.5) -/

theorem test_hash128x64 :
    answer (req 0x3 0 0 0 8) (countingKey 8) = some (0, 0xC567E5E6B655AC079CE80CA5EF93BFDC, 2, 0)
      ∧ answer (req 0x3 0 0 0 9) (countingKey 9) = some (0, 0xF1031A6FE0CF7DA1BF9DBE3FA2269D8E, 2, 0)
      ∧ answer (req 0x3 0 0 0 15) (countingKey 15) = some (0, 0xA57735E8CBFA38D0084BF0A04820FC95, 2, 0)
      ∧ answer (req 0x3 0 0 0 16) (countingKey 16) = some (0, 0x892F5D8512B98935B2C94760EF740FE0, 2, 0) := by
  decide

theorem test_hash128x64_signed :
    answer (req 0xB 0 5 0 17) (countingKey 17) = some (0, 0x350B092418EAB457E6A61C08599DA01C, 2, 1)
      ∧ answer (req 0x3 0 0xFFFFFFFF 0 0) [] = some (0, 0x857421121EE6446B6AF1DF4D9D3BC9EC, 2, 0) := by decide

/-! ### HASH (section 3.6) -/

theorem test_hash :
    answer (req 0x4 0 0 32 3) foo = some (0, 0xF6A5C420, 0, 0)
      ∧ answer (req 0xC 0 0 32 3) foo = some (0, 0xF6A5C420, 0, 1)
      ∧ answer (req 0x4 0 0 128 3) baz = some (0, 0xF0D87E3F91F7E406731F1BBDA41B9D0A, 2, 0) := by decide

theorem test_hash_errors :
    ([64, 0, 33, 127, 129, 0x10020, 0x10080] : List W32).all
        (fun w => statusOf (req 0x4 0 0 w 3) foo = some 1) = true
      ∧ statusOf (req 0x14 0 0 32 3) foo = some 2 := by decide

/-! ### Output interpretation (sections 2 and 3.4) -/

theorem test_signed_value :
    responseValue (okResponse .w32 (0x7FFFFFFF : W32) true) = some 2147483647
      ∧ responseValue (okResponse .w32 (0x80000000 : W32) true) = some (-2147483648)
      ∧ responseValue (okResponse .w32 (0x80000000 : W32) false) = some 2147483648
      ∧ responseValue (okResponse .w32 (0xF6A5C420 : W32) true) = some (-156908512)
      ∧ responseValue (okResponse .w128 (0x80000000000000000000000000000000 : W128) true)
          = some (-170141183460469231731687303715884105728)
      ∧ responseValue (okResponse .w128 (0xF0D87E3F91F7E406731F1BBDA41B9D0A : W128) true)
          = some (-20143551190955824769497853377875567350) := by decide

/-! ### Assembler (R68, R69; section 5) -/

theorem test_assemble_programs :
    assembleText "fmix32 0x1" = some (req 0 1 0 0 0)
      ∧ assembleText "hash.s 32, \"foo\", 0" = some (req 0xC 0 0 32 3)
      ∧ assembleText "hash   128, \"baz\"" = some (req 0x4 0 0 128 3)
      ∧ assembleText "hash32.s \"bar\", 100" = some (req 0xA 0 0x64 0 3)
      ∧ assembleText "hash128_x64   x\"010203040506070809\", 0" = some (req 0x3 0 0 0 9) := by decide

theorem test_parse_keys :
    parseLine "hash32 x\"0102ff\"".toList = some (.hash32 false [0x01, 0x02, 0xff] none)
      ∧ parseLine "hash32 \"a,b\", 7".toList = some (.hash32 false [0x61, 0x2c, 0x62] (some 7))
      ∧ parseLine "hash 64, \"foo\"".toList = some (.hash false 64 foo none) := by decide

/-- No coercion: a literal that does not fit its field, a signed finalizer and half a byte are refused. -/
theorem test_parse_refuses :
    parseLine "fmix64 0x10000000000000000".toList = none
      ∧ parseLine "hash 4294967328, \"foo\"".toList = none
      ∧ parseLine "fmix32.s 1".toList = none
      ∧ parseLine "hash32 x\"010\"".toList = none := by decide

/-! ### The transaction protocol -/

/-- A request on a Busy channel is held (R165). -/
theorem test_busy_channel_holds :
    accept 0 { busy (req 1 0 0 0 0) [] with waiting := [(0, req 1 5 0 0 0)] }
      = { busy (req 1 0 0 0 0) [] with waiting := [(0, req 1 5 0 0 0)] } := by decide

/-- A key byte that changes marks the transaction; a byte outside the key view, and a byte written with the
value it has, do not (R47). -/
theorem test_key_write_marks :
    (keyWrite 0 2 0 (busy (req 2 0 0 0 3) foo)).channels = [(0, ⟨req 2 0 0 0 3, true⟩)]
      ∧ (keyWrite 0 3 9 (busy (req 2 0 0 0 3) foo)).channels = [(0, ⟨req 2 0 0 0 3, false⟩)]
      ∧ (keyWrite 0 2 0x6f (busy (req 2 0 0 0 3) foo)).channels = [(0, ⟨req 2 0 0 0 3, false⟩)] := by decide

/-- Memory keeps one form: writing the value an unlisted byte has removes the entry. -/
theorem test_memory_form :
    (keyMem 0 foo).write 1 0 = [(0, 0x66), (2, 0x6f)] ∧ (keyMem 0 [1, 0, 2]).read 1 = 0 := by decide

/-- The word placed by `withFetchWord` is what the next step runs. -/
theorem test_fetch_word :
    lastResponse (step (State.reset.withFetchWord 32 1)) = some ⟨0, 0, 1, 0⟩
      ∧ lastResponse (step (State.reset.withFetchWord 32 0xA)) = some ⟨0, 0, 0, 1⟩
      ∧ (lastResponse (step (State.reset.withFetchWord 32 0xC))).map (·.status) = some 1 := by decide

/-! ### Witnesses: states and operands that meet the hypotheses of the statements -/

/-- Channel 0 exists, whatever NCH is (R7). -/
theorem nch_pos : 0 < Config.nch := Nat.succ_pos _

/-- A transaction on channel 0 and another on channel 1. -/
def twoBusy : State :=
  { State.reset with channels := [(0, ⟨req 2 0 0 0 3, false⟩), (1, ⟨req 1 5 0 0 0, false⟩)], mem := keyMem 0 foo }

/-- DecoderFollowsRule: a word for each clause, the least and the greatest where a clause has a range. -/
theorem witness_DecoderFollowsRule :
    16 ≤ (0x10 : W32).toNat ∧ 16 ≤ (0xFFFFFFFF : W32).toNat
      ∧ (0xC : W32).toNat < 16 ∧ (0x8 : W32).toNat % 8 = 0 ∧ (0x9 : W32).toNat % 8 = 1
      ∧ (0xA : W32).toNat % 8 = 2 ∧ (0xB : W32).toNat % 8 = 3 ∧ (0xC : W32).toNat % 8 = 4
      ∧ 5 ≤ (0xD : W32).toNat % 8 ∧ (0xF : W32).toNat < 16 := by decide

theorem witness_DecodeEncodeAgree : (Instr.hash true).wellFormed = true ∧ Instr.fmix32.wellFormed = true := by
  decide

/-- IllegalCommandEndsTransaction: each clause of R65, and an FMIX32 operand one above the greatest legal. -/
theorem witness_IllegalCommandEndsTransaction :
    (tableGet 0 (busy (req 0x5 0 0 0 0) []).channels = some ⟨req 0x5 0 0 0 0, false⟩ ∧ 5 ≤ (0x5 : W32).toNat % 8)
      ∧ (tableGet 0 (busy (req 0x10 0 0 0 0) []).channels = some ⟨req 0x10 0 0 0 0, false⟩ ∧ 16 ≤ (0x10 : W32).toNat)
      ∧ (tableGet 0 (busy (req 0x9 0 0 0 0) []).channels = some ⟨req 0x9 0 0 0 0, false⟩
          ∧ (0x9 : W32).toNat % 8 < 2 ∧ (0x9 : W32).toNat / 8 % 2 = 1)
      ∧ (tableGet 0 (busy (req 0 0x100000000 0 0 0) []).channels = some ⟨req 0 0x100000000 0 0 0, false⟩
          ∧ 2 ^ 32 ≤ (0x100000000 : W64).toNat) := by decide

/-- RotationMovesBits, at its least and its greatest amount: the bit named comes from where the rule says. -/
theorem witness_RotationMovesBits :
    (0 < 1 ∧ 1 < 32 ∧ 0 < 32 ∧ (rotl (0x80000000 : W32) 1).getLsbD 0 = true)
      ∧ (0 < 63 ∧ 63 < 64 ∧ 63 < 64 ∧ (rotl (1 : W64) 63).getLsbD 63 = true) := by decide

theorem witness_ExecFmix32Result :
    (serving (req 0 0xFFFFFFFF 0 0 0) false []).serving = some 0
      ∧ tableGet 0 (serving (req 0 0xFFFFFFFF 0 0 0) false []).channels = some ⟨req 0 0xFFFFFFFF 0 0 0, false⟩
      ∧ (req 0 0xFFFFFFFF 0 0 0).arg.toNat < 2 ^ 32 := by decide

theorem witness_ExecFmix32IllegalOperand :
    (serving (req 0 0x100000000 0 0 0) false []).serving = some 0
      ∧ tableGet 0 (serving (req 0 0x100000000 0 0 0) false []).channels = some ⟨req 0 0x100000000 0 0 0, false⟩
      ∧ 2 ^ 32 ≤ (req 0 0x100000000 0 0 0).arg.toNat := by decide

theorem witness_ExecFmix64Result :
    (serving (req 1 1 0 0 0) true []).serving = some 0
      ∧ tableGet 0 (serving (req 1 1 0 0 0) true []).channels = some ⟨req 1 1 0 0 0, true⟩ := by decide

/-- KeyWordBytes at the last byte of each word, and TailPackingBytes at the full and the empty tail. -/
theorem witness_KeyWordBytes :
    (memRead32 (fun i => BitVec.ofNat 8 i) 1).extractLsb' 24 8 = 4
      ∧ (memRead64 (fun i => BitVec.ofNat 8 i) 1).extractLsb' 56 8 = 8 := by decide

theorem witness_TailPackingBytes :
    (packTail 32 (fun i => BitVec.ofNat 8 i) 4 3).extractLsb' 16 8 = 6
      ∧ (packTail 32 (fun i => BitVec.ofNat 8 i) 4 3).extractLsb' 24 8 = 0
      ∧ (packTail 64 (fun i => BitVec.ofNat 8 i) 1 8).extractLsb' 56 8 = 8
      ∧ (packTail 64 (fun i => BitVec.ofNat 8 i) 1 0).extractLsb' 0 8 = 0 := by decide

/-- HashesReadOnlyTheKey: two keys that differ, but not below 3. -/
theorem witness_HashesReadOnlyTheKey :
    (∀ i, i < 3 → (fun j : Nat => if j < 3 then (1 : Byte) else 2) i = (fun _ => (1 : Byte)) i)
      ∧ (fun j : Nat => if j < 3 then (1 : Byte) else 2) 3 ≠ (fun _ : Nat => (1 : Byte)) 3 := by decide

theorem witness_Hash128IsStreaming : (countingKey 17).length < 2 ^ 32 := by decide

/-- Channel 0 served, its key stable: a key of three bytes, and the empty key. -/
theorem witness_ExecHash32Result :
    (serving (req 2 0 0 0 3) false foo).serving = some 0
      ∧ tableGet 0 (serving (req 2 0 0 0 3) false foo).channels = some ⟨req 2 0 0 0 3, false⟩
      ∧ tableGet 0 (serving (req 2 0 0 0 0) false []).channels = some ⟨req 2 0 0 0 0, false⟩ := by decide

theorem witness_ExecHash128Result :
    (serving (req 3 0 0 0 3) false baz).serving = some 0
      ∧ tableGet 0 (serving (req 3 0 0 0 3) false baz).channels = some ⟨req 3 0 0 0 3, false⟩ := by decide

/-- ExecHashResult, at each legal width. -/
theorem witness_ExecHashResult :
    (serving (req 4 0 0 32 3) false foo).serving = some 0
      ∧ tableGet 0 (serving (req 4 0 0 32 3) false foo).channels = some ⟨req 4 0 0 32 3, false⟩
      ∧ (req 4 0 0 32 3).width.toNat = 32
      ∧ tableGet 0 (serving (req 4 0 0 128 3) false foo).channels = some ⟨req 4 0 0 128 3, false⟩
      ∧ (req 4 0 0 128 3).width.toNat = 128 := by decide

/-- ExecHashInvalidWidth, at the widths next to the legal ones, key changed or not. -/
theorem witness_ExecHashInvalidWidth :
    ([31, 33, 127, 129] : List W32).all (fun w =>
        decide ((serving (req 4 0 0 w 3) true foo).freeDraws = 0)
          && decide ((serving (req 4 0 0 w 3) true foo).serving = some 0)
          && decide (tableGet 0 (serving (req 4 0 0 w 3) true foo).channels = some ⟨req 4 0 0 w 3, true⟩)
          && decide (w.toNat ≠ 32) && decide (w.toNat ≠ 128)) = true := by decide

theorem witness_DispatcherEquivalence :
    tableGet 0 (busy (req 4 0 0 32 3) foo).channels = some ⟨req 4 0 0 32 3, false⟩ ∧ (req 4 0 0 32 3).width = 32
      ∧ tableGet 0 (busy (req 4 0 0 128 3) foo).channels = some ⟨req 4 0 0 128 3, false⟩
      ∧ (req 4 0 0 128 3).width = 128 := by decide

/-- KeyChangedResponse, with each width the last two clauses name. -/
theorem witness_KeyChangedResponse :
    (serving (req 4 0 0 32 3) true foo).serving = some 0
      ∧ tableGet 0 (serving (req 4 0 0 32 3) true foo).channels = some ⟨req 4 0 0 32 3, true⟩
      ∧ (req 4 0 0 32 3).width = 32
      ∧ tableGet 0 (serving (req 4 0 0 128 3) true foo).channels = some ⟨req 4 0 0 128 3, true⟩
      ∧ (req 4 0 0 128 3).width = 128 := by decide

/-- OkResponseShape and ExecFrame: every operation gives a next state on a served channel. -/
theorem witness_ExecFrame (i : Instr) : ∃ t, exec i (serving (req 4 0 0 32 3) false foo) = .next t :=
  ⟨_, exec_eq i rfl rfl⟩

/-- OkResponseShape: there is an OK response of each tag. -/
theorem witness_OkResponseShape :
    (lastResponse (exec .fmix32 (serving (req 0 1 0 0 0) false []))).map (fun p => (p.status, p.rwidth)) = some (0, 0)
      ∧ (lastResponse (exec .fmix64 (serving (req 1 1 0 0 0) false []))).map (fun p => (p.status, p.rwidth)) = some (0, 1)
      ∧ (lastResponse (exec (.hash true) (serving (req 0xC 0 0 128 0) false []))).map
          (fun p => (p.status, p.rwidth)) = some (0, 2) := by decide

/-- SignedValue, at the least negative word of each width and the greatest word below it (section 3.4). -/
theorem witness_SignedValue :
    responseValue (okResponse .w32 (0x80000000 : W32) true) = some (-2147483648)
      ∧ responseValue (okResponse .w32 (0x7FFFFFFF : W32) true) = some 2147483647
      ∧ responseValue (okResponse .w64 (0xFFFFFFFFFFFFFFFF : W64) false) = some 18446744073709551615
      ∧ responseValue (okResponse .w128 (0xFFFFFFFFFFFFFFFFFFFFFFFFFFFFFFFF : W128) true) = some (-1) := by decide

/-- StatusCauses: a transaction for each STATUS. -/
theorem witness_StatusCauses :
    statusOf (req 0x4 0 0 64 0) [] = some 1 ∧ statusOf (req 0x7 0 0 0 0) [] = some 2
      ∧ statusOf (req 0x0 0xFFFFFFFFFFFFFFFF 0 0 0) [] = some 3 ∧ statusOf (req 0x1 0 0 0 0) [] = some 0 := by decide

/-- SameRequestSameStatus: equal CMD, ARG and WIDTH on two channels, the rest different. -/
theorem witness_SameRequestSameStatus :
    tableGet 0 (busy (req 4 0 1 64 3) foo).channels = some ⟨req 4 0 1 64 3, false⟩
      ∧ tableGet 1 { State.reset with channels := [(1, ⟨req 4 0 2 64 0, true⟩)] }.channels
          = some ⟨req 4 0 2 64 0, true⟩
      ∧ (req 4 0 1 64 3).cmd = (req 4 0 2 64 0).cmd ∧ (req 4 0 1 64 3).arg = (req 4 0 2 64 0).arg
      ∧ (req 4 0 1 64 3).width = (req 4 0 2 64 0).width := by decide

/-- RespondMatchesRule37: a transaction whose key is stable, and one whose key changed. -/
theorem witness_RespondMatchesRule37 :
    tableGet 0 (serving (req 2 0 0 0 3) false foo).channels = some ⟨req 2 0 0 0 3, false⟩
      ∧ tableGet 0 (serving (req 2 0 0 0 3) true foo).channels = some ⟨req 2 0 0 0 3, true⟩ := by decide

/-- KeyBytesChangeOnlyByHost: a step that a host's write makes, and one that it does not. -/
theorem witness_KeyBytesChangeOnlyByHost :
    (∃ t, step { twoBusy with schedule := [.keyWrite 0 1 7] } = .next t)
      ∧ ∃ t, step { twoBusy with schedule := [.reset] } = .next t := ⟨⟨_, rfl⟩, ⟨_, rfl⟩⟩

/-- KeyWriteMarksTransactions: the last byte of a key view, and the first beyond it. -/
theorem witness_KeyWriteMarksTransactions :
    nextMove { twoBusy with schedule := [.keyWrite 0 2 7] } = some (.keyWrite 0 2 7)
      ∧ tableGet 0 twoBusy.channels = some ⟨req 2 0 0 0 3, false⟩ ∧ tableGet 2 twoBusy.channels = none
      ∧ (2 : W32).toNat < (req 2 0 0 0 3).klen.toNat ∧ twoBusy.mem.read (keyAddr 0 2) ≠ 7
      ∧ ¬ (3 : W32).toNat < (req 2 0 0 0 3).klen.toNat := by decide

/-- StableKeyBytes: a step after which the transaction is still there and unmarked. -/
theorem witness_StableKeyBytes :
    step { twoBusy with schedule := [.keyWrite 0 3 7] } = .next (keyWrite 0 3 7 twoBusy)
      ∧ tableGet 0 twoBusy.channels = some ⟨req 2 0 0 0 3, false⟩
      ∧ tableGet 0 (keyWrite 0 3 7 twoBusy).channels = some ⟨req 2 0 0 0 3, false⟩ := ⟨rfl, by decide, by decide⟩

theorem witness_ResetAbandonsTransactions : { twoBusy with schedule := [.reset] }.schedule = .reset :: [] := by decide

/-- PresentedRequestWaits: on channel 0, Busy, and on the first channel number that does not exist. -/
theorem witness_PresentedRequestWaits :
    (nextMove { twoBusy with schedule := [.present 0 (req 0 0 0 0 0)] } = some (.present 0 (req 0 0 0 0 0))
      ∧ 0 < Config.nch)
      ∧ (nextMove { twoBusy with schedule := [.present Config.nch (req 0 0 0 0 0)] }
          = some (.present Config.nch (req 0 0 0 0 0)) ∧ Config.nch ≤ Config.nch) :=
  ⟨⟨rfl, nch_pos⟩, rfl, le_rfl⟩

/-- HeldRequestsStay: a request held on a Busy channel, one accepted, and one dropped by reset. -/
theorem witness_HeldRequestsStay :
    (∃ u, step { twoBusy with schedule := [.accept 0], waiting := [(0, req 1 5 0 0 0)] } = .next u)
      ∧ (∃ u, step { State.reset with schedule := [.accept 0], waiting := [(0, req 1 5 0 0 0)] } = .next u)
      ∧ (∃ u, step { twoBusy with schedule := [.reset], waiting := [(0, req 1 5 0 0 0)] } = .next u)
      ∧ (0, req 1 5 0 0 0) ∈ { twoBusy with waiting := [(0, req 1 5 0 0 0)] }.waiting :=
  ⟨⟨_, rfl⟩, ⟨_, rfl⟩, ⟨_, rfl⟩, by decide⟩

/-- RequestStaysUntilAnswered: a step that answers another channel, one that answers this one, and a reset. -/
theorem witness_RequestStaysUntilAnswered :
    tableGet 0 twoBusy.channels = some ⟨req 2 0 0 0 3, false⟩
      ∧ (∃ u, step { twoBusy with schedule := [.respond 1] } = .next u)
      ∧ (∃ u, step { twoBusy with schedule := [.respond 0] } = .next u)
      ∧ ∃ u, step { twoBusy with schedule := [.reset] } = .next u :=
  ⟨by decide, ⟨_, step_respond_eq rfl rfl⟩, ⟨_, step_respond_eq rfl rfl⟩, ⟨_, rfl⟩⟩

/-- AcceptIssuesOldest: two requests wait on channel 0 behind one on channel 1. -/
theorem witness_AcceptIssuesOldest :
    nextMove { State.reset with schedule := [.accept 0], waiting := [(1, req 0 0 0 0 0), (0, req 1 5 0 0 0), (0, req 1 6 0 0 0)] }
        = some (.accept 0)
      ∧ tableGet 0 State.reset.channels = none
      ∧ [(1, req 0 0 0 0 0), (0, req 1 5 0 0 0), (0, req 1 6 0 0 0)]
          = [(1, req 0 0 0 0 0)] ++ (0, req 1 5 0 0 0) :: [(0, req 1 6 0 0 0)]
      ∧ ∀ e ∈ [(1, req 0 0 0 0 0)], e.1 ≠ 0 := by decide

theorem witness_FirstRequestAfterReset : 0 < Config.nch := nch_pos

/-- StepRunsDecoded: a scheduled response, and one that is due because nothing is scheduled. -/
theorem witness_StepRunsDecoded :
    nextMove { twoBusy with schedule := [.respond 1] } = some (.respond 1) ∧ nextMove twoBusy = some (.respond 0)
      ∧ tableGet 0 twoBusy.channels = some ⟨req 2 0 0 0 3, false⟩ ∧ decode (req 2 0 0 0 3).cmd = .ok (.hash32 false) := by
  decide

/-- StepAnswersOrRefuses: the refusal is reached, by a request for channel number NCH. -/
theorem witness_StepAnswersOrRefuses :
    step { State.reset with schedule := [.present Config.nch (req 0 0 0 0 0)] } = .refused .noSuchChannel := by
  rw [step_of_move (nextMove_cons rfl)]
  simp [doMove, present]

/-- StepKeepsInvariant: a state with a Busy channel, a held request and key bytes, and its step. -/
theorem witness_StepKeepsInvariant :
    { busy (req 2 0 0 0 3) foo with waiting := [(0, req 1 5 0 0 0)] }.Inv
      ∧ ∃ t, step { busy (req 2 0 0 0 3) foo with waiting := [(0, req 1 5 0 0 0)] } = .next t := by
  refine ⟨⟨by decide, ?_, ?_, by decide, by decide⟩,
    ⟨_, step_respond_eq rfl rfl⟩⟩
  · intro e he
    rw [List.mem_singleton.mp he]
    exact nch_pos
  · intro e he
    rw [List.mem_singleton.mp he]
    exact nch_pos

/-- EveryRequestAnswered: a request presented on a Busy channel, and no reset to come. -/
theorem witness_EveryRequestAnswered :
    { busy (req 2 0 0 0 3) foo with schedule := [.present 0 (req 1 5 0 0 0), .accept 0] }.Inv
      ∧ { busy (req 2 0 0 0 3) foo with schedule := [.present 0 (req 1 5 0 0 0), .accept 0] }.presentsExist
      ∧ Move.reset ∉ [Move.present 0 (req 1 5 0 0 0), .accept 0] := by
  refine ⟨⟨by decide, ?_, by simp [busy, State.reset], by decide, by decide⟩, ?_, by decide⟩
  · intro e he
    rw [List.mem_singleton.mp he]
    exact nch_pos
  · intro c r h
    have hc : Move.present c r = .present 0 (req 1 5 0 0 0) := by simpa using h
    rw [(Move.present.inj hc).1]
    exact nch_pos

/-- IssueTimeKeyDecidesResponse: between issue and response another channel is answered and a byte of the key
is written; the response is then due. -/
theorem witness_IssueTimeKeyDecidesResponse :
    tableGet 0 { twoBusy with schedule := [.respond 1, .keyWrite 0 1 7] }.channels = some ⟨req 2 0 0 0 3, false⟩
      ∧ { twoBusy with schedule := [.respond 1, .keyWrite 0 1 7] }.leavesAlone 0 2
      ∧ ∃ u, core.run 2 { twoBusy with schedule := [.respond 1, .keyWrite 0 1 7] } = .next u
          ∧ nextMove u = some (.respond 0) := by
  have h : step { twoBusy with schedule := [.respond 1, .keyWrite 0 1 7] }
      = .next (State.replied { twoBusy with schedule := [.keyWrite 0 1 7] } 1 (reply ⟨req 1 5 0 0 0, false⟩ twoBusy.mem 0)) :=
    step_respond_eq rfl rfl
  refine ⟨by decide, ⟨by decide, by decide, fun t ht => ?_⟩, ?_⟩
  · rw [h] at ht
    rw [← Host.Outcome.next.inj ht]
    exact ⟨by decide, by decide, fun _ _ => trivial⟩
  · rw [run_succ_of_step _ h]
    exact ⟨_, rfl, rfl⟩

/-- ResponseReadsListedFieldsOnly: HASH32 on two channels, equal in the fields it reads and in its three key
bytes, different in ARG, WIDTH and key view; and FMIX64 with nothing equal but ARG. -/
theorem witness_ResponseReadsListedFieldsOnly :
    let s := busy (req 2 0 9 0 3) foo
    let t : Transaction := ⟨req 2 0 9 0 3, false⟩
    let s' : State := { State.reset with channels := [(1, ⟨{ req 2 7 9 64 3 with view := 1 }, false⟩)],
                                         mem := [(2 ^ 32, 0x66), (2 ^ 32 + 1, 0x6f), (2 ^ 32 + 2, 0x6f)] }
    let t' : Transaction := ⟨{ req 2 7 9 64 3 with view := 1 }, false⟩
    tableGet 0 s.channels = some t ∧ tableGet 1 s'.channels = some t' ∧ t.req.cmd = t'.req.cmd
      ∧ s.freeDraws = s'.freeDraws ∧ decode t.req.cmd = .ok (.hash32 false) ∧ ¬ (Instr.hash32 false).op.toNat < 2
      ∧ t.req.seed = t'.req.seed ∧ t.req.klen = t'.req.klen ∧ t.keyChanged = t'.keyChanged
      ∧ (keyByte s.mem t.req 0 = keyByte s'.mem t'.req 0 ∧ keyByte s.mem t.req 1 = keyByte s'.mem t'.req 1
          ∧ keyByte s.mem t.req 2 = keyByte s'.mem t'.req 2)
      ∧ (Instr.hash32 false).op ≠ 4
      ∧ decode 1 = .ok .fmix64 ∧ (req 1 5 0 0 0).arg = (req 1 5 8 32 3).arg := by decide

theorem witness_RespondOrderIrrelevant :
    0 ≠ 1 ∧ tableGet 0 twoBusy.channels = some ⟨req 2 0 0 0 3, false⟩
      ∧ tableGet 1 twoBusy.channels = some ⟨req 1 5 0 0 0, false⟩ := by decide

/-- AssembledLineIsAnswered: a line with a key, on channel 0 from reset, nothing waiting. -/
theorem witness_AssembledLineIsAnswered :
    0 < Config.nch ∧ asmMoves 0 0 (.hash32 true bar (some 100)) = some
        [.keyWrite 0 0 0x62, .keyWrite 0 1 0x61, .keyWrite 0 2 0x72, .present 0 (req 0xA 0 100 0 3), .accept 0, .respond 0]
      ∧ tableGet 0 State.reset.channels = none ∧ ∀ e ∈ State.reset.waiting, e.1 ≠ 0 :=
  ⟨nch_pos, by decide, by decide, by decide⟩

/-- AssemblerDefaults: lines that assemble, among them a `hash 32` line and its `hash32` line. -/
theorem witness_AssemblerDefaults :
    assemble 0 (.hash true 32 bar (some 100)) = some (req 0xC 0 100 32 3)
      ∧ assemble 0 (.hash32 true bar (some 100)) = some (req 0xA 0 100 0 3) := by decide

end Sys2Proof.Tests
end

section
/-! SUPPORT. The bits of a rotated word (R11) and the bytes of a key word (R14, R43, R44). -/

namespace Sys2Proof.Machine

/-- R11: the left shift supplies the bits from `r` up, the right shift those below `r`. -/
theorem getLsbD_rotl {n : Nat} (x : BitVec n) {r i : Nat} (hr : r < n) (hi : i < n) :
    (rotl x r).getLsbD i = x.getLsbD ((i + n - r) % n) := by
  rw [rotl, BitVec.getLsbD_or, BitVec.getLsbD_shiftLeft, BitVec.getLsbD_ushiftRight]
  by_cases h : i < r
  · have hidx : (i + n - r) % n = n - r + i := by
      rw [Nat.mod_eq_of_lt (by omega)]
      omega
    simp [h, hidx]
  · have hidx : (i + n - r) % n = i - r := by
      rw [show i + n - r = i - r + n by omega, Nat.add_mod_right, Nat.mod_eq_of_lt (by omega)]
    have hhigh : x.getLsbD (n - r + i) = false := BitVec.getLsbD_of_ge x _ (by omega)
    simp [h, hi, hidx, hhigh]

/-- Byte `j` of a word whose value is a little-endian read of `n` bytes at offset `i`. -/
theorem extractLsb'_of_toNat_eq_memReadNat {w : Nat} {x : BitVec w} {K : Nat → Byte} {i j n : Nat}
    (hx : x.toNat = memReadNat K i n) (hj : j < n) : x.extractLsb' (8 * j) 8 = K (i + j) := by
  apply BitVec.eq_of_toNat_eq
  rw [BitVec.extractLsb'_toNat, Nat.shiftRight_eq_div_pow, hx]
  exact memReadNat_byte K i hj

/-- R44: the word at the higher offset is the upper half. -/
theorem memRead64_eq_append (K : Nat → Byte) (i : Nat) :
    memRead64 K i = memRead32 K (i + 4) ++ memRead32 K i := by
  apply BitVec.eq_of_toNat_eq
  rw [BitVec.toNat_append, ← Nat.shiftLeft_add_eq_or_of_lt (memRead32 K i).isLt, Nat.shiftLeft_eq,
    memRead64_toNat, memRead32_toNat, memRead32_toNat, memReadNat_add K i 4 4, Nat.add_comm]

end Sys2Proof.Machine
end

section
/-! The statements of spec/00_scope.md. -/

namespace Sys2Proof.Machine

/-- Settles O6: the two shifts are the definition, and each bit comes from one of them. -/
theorem rotationMovesBits : Obligations.RotationMovesBits :=
  fun _ x _ _ _ hr hi => ⟨rfl, getLsbD_rotl x hr hi⟩

/-- Settles O14: both words are little-endian reads, of four and of eight bytes. -/
theorem keyWordBytes : Obligations.KeyWordBytes :=
  fun K i => ⟨fun _ => extractLsb'_of_toNat_eq_memReadNat (memRead32_toNat K i),
    fun _ => extractLsb'_of_toNat_eq_memReadNat (memRead64_toNat K i), memRead64_eq_append K i⟩

end Sys2Proof.Machine
end

section
/-! SUPPORT. What a delivered reply does to each field of the state, one lemma per field, and the transaction
protocol's updates seen through a look-up of a channel. -/

namespace Sys2Proof.Machine

/-! ### State.replied -/

@[simp] theorem State.replied_channels (s : State) (c : Nat) (x : Response × Bool) :
    (s.replied c x).channels = tableErase c s.channels := rfl
@[simp] theorem State.replied_waiting (s : State) (c : Nat) (x : Response × Bool) :
    (s.replied c x).waiting = s.waiting := rfl
@[simp] theorem State.replied_responses (s : State) (c : Nat) (x : Response × Bool) :
    (s.replied c x).responses = s.responses ++ [(c, x.1)] := rfl
@[simp] theorem State.replied_mem (s : State) (c : Nat) (x : Response × Bool) :
    (s.replied c x).mem = s.mem := rfl
@[simp] theorem State.replied_schedule (s : State) (c : Nat) (x : Response × Bool) :
    (s.replied c x).schedule = s.schedule := rfl
@[simp] theorem State.replied_serving (s : State) (c : Nat) (x : Response × Bool) :
    (s.replied c x).serving = none := rfl
@[simp] theorem State.replied_freeDraws (s : State) (c : Nat) (x : Response × Bool) :
    (s.replied c x).freeDraws = s.freeDraws + x.2.toNat := by
  simp only [State.replied]
  cases x.2 <;> rfl

/-- The state after a step that answers a Busy channel. -/
theorem eq_replied_of_step {s u : State} {c : Nat} {t : Transaction} (h : step s = .next u)
    (hm : nextMove s = some (.respond c)) (ht : tableGet c s.channels = some t) :
    u = s.pop.replied c (reply t s.mem s.freeDraws) := by
  rw [step_respond_eq hm ht] at h
  exact (Host.Outcome.next.inj h).symm

/-! ### Accepting -/

/-- The oldest request of a channel is the one behind the requests of other channels. -/
theorem takeFirst_append {c : Nat} {r : Request} {before after : List (Nat × Request)}
    (h : ∀ e ∈ before, e.1 ≠ c) :
    takeFirst c (before ++ (c, r) :: after) = some (r, before ++ after) := by
  induction before with
  | nil => simp [takeFirst]
  | cons e before ih =>
    obtain ⟨he, hb⟩ := List.forall_mem_cons.mp h
    simp [takeFirst, he, ih hb]

/-- Accepting on an Idle channel with a request to take. -/
theorem accept_eq {c : Nat} {s : State} {r : Request} {rest : List (Nat × Request)}
    (hc : tableGet c s.channels = none) (hw : takeFirst c s.waiting = some (r, rest)) :
    accept c s = { s with channels := tableSet c ⟨r, false⟩ s.channels, waiting := rest } := by
  simp [accept, hc, hw]

/-- Accepting changes the channels and the waiting requests at most. -/
theorem accept_frame (c : Nat) (s : State) :
    (accept c s).responses = s.responses ∧ (accept c s).mem = s.mem ∧ (accept c s).schedule = s.schedule
      ∧ (accept c s).serving = s.serving ∧ (accept c s).freeDraws = s.freeDraws := by
  rcases accept_cases c s with h | ⟨r, rest, -, -, h⟩ <;> rw [h] <;> exact ⟨rfl, rfl, rfl, rfl, rfl⟩

/-- A Busy channel keeps its transaction when the block accepts, on it or on another. -/
theorem tableGet_accept_of_busy {c : Nat} {s : State} {t : Transaction} (h : tableGet c s.channels = some t)
    (d : Nat) : tableGet c (accept d s).channels = some t := by
  rcases accept_cases d s with he | ⟨r, rest, hd, -, he⟩
  · rwa [he]
  · have hne : c ≠ d := by
      rintro rfl
      simp [hd] at h
    rw [he]
    exact (tableGet_tableSet_of_ne hne _ _).trans h

/-! ### Which move comes next -/

/-- The next move is the schedule's first, or one of the block's own two. -/
theorem nextMove_cases {s : State} {m : Move} (h : nextMove s = some m) :
    (∃ ms, s.schedule = m :: ms)
      ∨ (s.schedule = [] ∧ ∃ c t l, s.channels = (c, t) :: l ∧ m = .respond c)
      ∨ (s.schedule = [] ∧ s.channels = [] ∧ ∃ c r l, s.waiting = (c, r) :: l ∧ m = .accept c) := by
  unfold nextMove at h
  split at h
  · next m' ms hs => exact .inl ⟨ms, by rw [hs, Option.some.inj h]⟩
  · next hs =>
    split at h
    · next c t l hc => exact .inr (.inl ⟨hs, c, t, l, hc, (Option.some.inj h).symm⟩)
    · next hc =>
      split at h
      · next c r l hw => exact .inr (.inr ⟨hs, hc, c, r, l, hw, (Option.some.inj h).symm⟩)
      · cases h

/-- The block itself neither presents nor resets: such a move was scheduled. -/
theorem mem_schedule_of_nextMove {s : State} {m : Move} (h : nextMove s = some m)
    (hr : ∀ c, m ≠ .respond c) (ha : ∀ c, m ≠ .accept c) : m ∈ s.schedule := by
  rcases nextMove_cases h with ⟨ms, hs⟩ | ⟨-, c, -, -, -, hm⟩ | ⟨-, -, c, -, -, -, hm⟩
  · simp [hs]
  · exact absurd hm (hr c)
  · exact absurd hm (ha c)

/-- Every step takes the first move off the schedule, and does nothing else to it. -/
theorem step_schedule {s t : State} (h : step s = .next t) : t.schedule = s.schedule.tail := by
  rcases step_cases h with ⟨hm, rfl⟩ | ⟨c, r, -, -, rfl⟩ | ⟨c, -, rfl⟩ | ⟨c, -, -, rfl⟩
    | ⟨c, tr, p, hm, htr, -⟩ | ⟨v, o, b, -, rfl⟩ | ⟨-, rfl⟩
  · simp [(nextMove_eq_none_iff.mp hm).1]
  · rfl
  · obtain ⟨-, -, hs, -, -⟩ := accept_frame c s.pop
    exact hs
  · rfl
  · rw [eq_replied_of_step h hm htr]
    rfl
  · rfl
  · rfl

/-- A step gives a next state unless it presents a request on a channel that does not exist. -/
theorem exists_step_of_present_lt {s : State}
    (h : ∀ c r, nextMove s = some (.present c r) → c < Config.nch) : ∃ t, step s = .next t := by
  cases hm : nextMove s with
  | none => exact ⟨s, step_of_idle hm⟩
  | some m =>
    rw [step_of_move hm]
    cases m with
    | present c r => exact ⟨_, if_pos (h c r hm)⟩
    | accept c => exact ⟨_, rfl⟩
    | respond c =>
      cases hc : tableGet c s.pop.channels with
      | none => exact ⟨_, respond_idle hc⟩
      | some t => exact ⟨_, respond_eq hc⟩
    | keyWrite v o b => exact ⟨_, rfl⟩
    | reset => exact ⟨_, rfl⟩

end Sys2Proof.Machine
end

section
/-! The invariant of the state (R34, R35, R40) is kept by each kind of move. -/

namespace Sys2Proof.Machine

theorem State.Inv.pop {s : State} (h : s.Inv) : s.pop.Inv :=
  ⟨h.channelsRising, h.channelsExist, h.waitingExist, h.memCanonical, h.notServing⟩

theorem State.Inv.present {s : State} (h : s.Inv) {c : Nat} (hc : c < Config.nch) (r : Request) :
    State.Inv { s with waiting := s.waiting ++ [(c, r)] } where
  channelsRising := h.channelsRising
  channelsExist := h.channelsExist
  waitingExist e he := by
    rcases List.mem_append.mp he with he | he
    · exact h.waitingExist e he
    · rwa [List.mem_singleton.mp he]
  memCanonical := h.memCanonical
  notServing := h.notServing

/-- The accepted request was waiting, so its channel exists. -/
theorem State.Inv.accept {s : State} (h : s.Inv) (c : Nat) : (accept c s).Inv := by
  rcases accept_cases c s with he | ⟨r, rest, -, hw, he⟩
  · rwa [he]
  obtain ⟨before, after, hl, rfl, -⟩ := takeFirst_eq_some hw
  have hwait : ∀ e ∈ before ++ (c, r) :: after, e.1 < Config.nch := hl ▸ h.waitingExist
  rw [he]
  refine ⟨risingKeys_tableSet c _ h.channelsRising, fun e hm => ?_, fun e hm => hwait e ?_,
    h.memCanonical, h.notServing⟩
  · rcases mem_of_mem_tableSet hm with rfl | hm
    · exact hwait (c, r) (by simp)
    · exact h.channelsExist e hm
  · rcases List.mem_append.mp hm with hm | hm <;> simp [hm]

theorem State.Inv.replied {s : State} (h : s.Inv) (c : Nat) (x : Response × Bool) :
    (s.replied c x).Inv where
  channelsRising := risingKeys_tableErase c h.channelsRising
  channelsExist e he := h.channelsExist e (mem_of_mem_tableErase he)
  waitingExist := h.waitingExist
  memCanonical := h.memCanonical
  notServing := rfl

theorem State.Inv.keyWrite {s : State} (h : s.Inv) (v : Nat) (o : W32) (b : Byte) :
    (keyWrite v o b s).Inv where
  channelsRising := risingKeys_map _ h.channelsRising
  channelsExist e he := by
    obtain ⟨d, hd, rfl⟩ := List.mem_map.mp he
    exact h.channelsExist d hd
  waitingExist := h.waitingExist
  memCanonical := Memory.write_wf h.memCanonical _ b
  notServing := h.notServing

theorem State.Inv.resetBlock {s : State} (h : s.Inv) : (resetBlock s).Inv :=
  ⟨List.Pairwise.nil, by simp, by simp, h.memCanonical, rfl⟩

/-- Settles O47: each kind of move keeps the invariant. -/
theorem stepKeepsInvariant : Obligations.StepKeepsInvariant := by
  intro s t hs h
  rcases step_cases h with ⟨-, rfl⟩ | ⟨c, r, -, hc, rfl⟩ | ⟨c, -, rfl⟩ | ⟨c, -, -, rfl⟩
    | ⟨c, tr, p, hm, htr, -⟩ | ⟨v, o, b, -, rfl⟩ | ⟨-, rfl⟩
  · exact hs
  · exact hs.pop.present hc r
  · exact hs.pop.accept c
  · exact hs.pop
  · rw [eq_replied_of_step h hm htr]
    exact hs.pop.replied c _
  · exact hs.pop.keyWrite v o b
  · exact hs.pop.resetBlock

end Sys2Proof.Machine
end

section
/-! Progress (R35, R38): every step that does something lowers `movesLeft`, and no step loses or invents a request. -/

namespace Sys2Proof.Machine

/-! ### Counting the entries of a table -/

section
variable {α : Type}

/-- With rising keys a key has one entry if the look-up finds it, and none otherwise. -/
theorem countP_key {l : List (Nat × α)} (h : risingKeys l) (k : Nat) :
    l.countP (fun e => e.1 == k) = (tableGet k l).toList.length := by
  induction l with
  | nil => rfl
  | cons e l ih =>
    obtain ⟨j, v⟩ := e
    obtain ⟨hj, hl⟩ := List.pairwise_cons.mp h
    rw [List.countP_cons, ih hl, tableGet_cons]
    by_cases hk : j = k
    · subst hk
      have hnone : tableGet j l = none := tableGet_eq_none_iff.mpr fun e he => (hj e he).ne'
      simp [hnone]
    · simp [hk]

theorem length_tableErase_lt {k : Nat} {v : α} {l : List (Nat × α)} (h : tableGet k l = some v) :
    (tableErase k l).length < l.length :=
  List.length_filter_lt_length_iff_exists.mpr ⟨(k, v), mem_of_tableGet h, by simp⟩

theorem length_tableSet_le (k : Nat) (v : α) (l : List (Nat × α)) :
    (tableSet k v l).length ≤ l.length + 1 := by
  induction l with
  | nil => simp [tableSet]
  | cons e l ih =>
    simp only [tableSet]
    split
    · simp
    · split
      · simp
      · simpa using ih

end

/-! ### The measure -/

/-- Accepting puts at most one request in progress for one that no longer waits. -/
theorem accept_load_le (c : Nat) (s : State) :
    2 * (accept c s).waiting.length + (accept c s).channels.length
      ≤ 2 * s.waiting.length + s.channels.length := by
  rcases accept_cases c s with he | ⟨r, rest, -, hw, he⟩
  · rw [he]
  · obtain ⟨before, after, hl, rfl, -⟩ := takeFirst_eq_some hw
    have := length_tableSet_le c ⟨r, false⟩ s.channels
    simp only [he, hl, List.length_append, List.length_cons]
    omega

/-- A step adds at most one waiting request. -/
theorem step_load_le {s t : State} (h : step s = .next t) :
    2 * t.waiting.length + t.channels.length ≤ 2 * s.waiting.length + s.channels.length + 2 := by
  rcases step_cases h with ⟨-, rfl⟩ | ⟨c, r, -, -, rfl⟩ | ⟨c, -, rfl⟩ | ⟨c, -, -, rfl⟩
    | ⟨c, tr, p, hm, htr, -⟩ | ⟨v, o, b, -, rfl⟩ | ⟨-, rfl⟩
  · omega
  · simp only [List.length_append, List.length_cons, List.length_nil, State.pop_channels]
    omega
  · exact (accept_load_le c s.pop).trans (Nat.le_add_right _ 2)
  · simp
  · have := length_tableErase_lt htr
    rw [eq_replied_of_step h hm htr]
    simp only [State.replied_waiting, State.pop_waiting, State.replied_channels, State.pop_channels]
    omega
  · simp [keyWrite]
  · simp

/-- A step that does something lowers `movesLeft`: a scheduled move is worth three, and the block's own moves
answer a channel or accept a request. -/
theorem movesLeft_lt_of_step {s t : State} {m : Move} (hm : nextMove s = some m) (h : step s = .next t) :
    t.movesLeft < s.movesLeft := by
  have hsched := step_schedule h
  unfold State.movesLeft
  rcases nextMove_cases hm with ⟨ms, hs⟩ | ⟨hs, c, tr, l, hc, rfl⟩ | ⟨hs, hc, c, r, l, hw, rfl⟩
  · have := step_load_le h
    simp only [hsched, hs, List.tail_cons, List.length_cons]
    omega
  · have hget : tableGet c s.channels = some tr := by simp [hc, tableGet_cons]
    have := length_tableErase_lt hget
    rw [eq_replied_of_step h hm hget]
    simpa [hs] using this
  · have hacc : accept c s.pop = { s.pop with channels := [(c, ⟨r, false⟩)], waiting := l } := by
      rw [accept_eq (r := r) (rest := l) (by simp [hc]) (by simp [hw, takeFirst])]
      simp [hc, tableSet]
    rw [step_of_move hm] at h
    cases h.symm.trans (congrArg Host.Outcome.next hacc)
    simp only [State.pop_schedule, hs, hc, hw, List.tail_nil, List.length_cons, List.length_nil]
    omega

theorem movesLeft_le_of_step {s t : State} (h : step s = .next t) : t.movesLeft ≤ s.movesLeft - 1 := by
  cases hm : nextMove s with
  | none =>
    rw [step_of_idle hm] at h
    cases h
    obtain ⟨hs, hc, hw⟩ := nextMove_eq_none_iff.mp hm
    simp [State.movesLeft, hs, hc, hw]
  | some m =>
    have := movesLeft_lt_of_step hm h
    omega

theorem movesLeft_eq_zero_iff {s : State} :
    s.movesLeft = 0 ↔ s.schedule = [] ∧ s.channels = [] ∧ s.waiting = [] := by
  simp only [← List.length_eq_zero_iff, State.movesLeft]
  omega

/-! ### The count of requests and responses -/

/-- What channel `c` has in progress, waiting and yet to be presented, its channels counted by a look-up. -/
theorem outstanding_eq {s : State} (h : s.Inv) (c : Nat) :
    s.outstanding c = (tableGet c s.channels).toList.length + s.waiting.countP (fun e => e.1 == c)
      + s.schedule.countP (Move.presentsOn c) := by
  rw [State.outstanding, countP_key h.channelsRising]

/-- The move taken off the schedule counts if it presents a request. -/
theorem countP_presentsOn_tail {s : State} {m : Move} (hm : nextMove s = some m) (c : Nat) :
    s.schedule.countP (Move.presentsOn c)
      = s.schedule.tail.countP (Move.presentsOn c) + (Move.presentsOn c m).toNat := by
  rcases nextMove_cases hm with ⟨ms, hs⟩ | ⟨hs, d, -, -, -, rfl⟩ | ⟨hs, -, d, -, -, -, rfl⟩
  · rw [hs, List.tail_cons, List.countP_cons]
    cases Move.presentsOn c m <;> rfl
  · simp [hs, Move.presentsOn]
  · simp [hs, Move.presentsOn]

/-- A presented request waits. -/
theorem outstanding_present (s : State) (d : Nat) (r : Request) (c : Nat) :
    State.outstanding { s with waiting := s.waiting ++ [(d, r)] } c
      = s.outstanding c + (Move.presentsOn c (.present d r)).toNat := by
  simp only [State.outstanding, Move.presentsOn, List.countP_append, List.countP_singleton]
  cases d == c
  · rfl
  · simp only [if_true, Bool.toNat_true]
    omega

/-- Accepting moves a request from waiting to in progress. -/
theorem outstanding_accept {s : State} (h : s.Inv) (d c : Nat) :
    (accept d s).outstanding c = s.outstanding c := by
  rw [outstanding_eq h, outstanding_eq (h.accept d)]
  rcases accept_cases d s with he | ⟨r, rest, hd, hw, he⟩
  · rw [he]
  · obtain ⟨before, after, hl, rfl, -⟩ := takeFirst_eq_some hw
    simp only [he, hl, List.countP_append, List.countP_cons]
    by_cases hc : c = d
    · subst hc
      simp [hd]
      omega
    · simp [tableGet_tableSet_of_ne hc, Ne.symm hc]

/-- Answering takes the channel's request off, and adds a response. -/
theorem answered_add_outstanding_replied {s : State} (h : s.Inv) {d : Nat} {t : Transaction}
    (ht : tableGet d s.channels = some t) (x : Response × Bool) (c : Nat) :
    (s.replied d x).answered c + (s.replied d x).outstanding c = s.answered c + s.outstanding c := by
  rw [outstanding_eq h, outstanding_eq (h.replied d x)]
  by_cases hc : c = d
  · subst hc
    simp [State.answered, ht]
    omega
  · simp [State.answered, tableGet_tableErase_of_ne hc, Ne.symm hc]

theorem outstanding_keyWrite {s : State} (h : s.Inv) (v : Nat) (o : W32) (b : Byte) (c : Nat) :
    (keyWrite v o b s).outstanding c = s.outstanding c := by
  rw [outstanding_eq h, outstanding_eq (h.keyWrite v o b), tableGet_keyWrite]
  cases tableGet c s.channels <;> rfl

/-- No step but a reset loses or invents a request: each is still outstanding, or has had its response. -/
theorem answered_add_outstanding_step {s t : State} (hs : s.Inv) (hr : nextMove s ≠ some .reset)
    (h : step s = .next t) (c : Nat) :
    t.answered c + t.outstanding c = s.answered c + s.outstanding c := by
  have hpop {m : Move} (hm : nextMove s = some m) :
      s.outstanding c = s.pop.outstanding c + (Move.presentsOn c m).toNat := by
    simp only [State.outstanding, countP_presentsOn_tail hm c, State.pop_channels, State.pop_waiting,
      State.pop_schedule]
    omega
  rcases step_cases h with ⟨-, rfl⟩ | ⟨d, r, hm, -, rfl⟩ | ⟨d, hm, rfl⟩ | ⟨d, hm, -, rfl⟩
    | ⟨d, tr, p, hm, htr, -⟩ | ⟨v, o, b, hm, rfl⟩ | ⟨hm, -⟩
  · rfl
  · rw [hpop hm, ← outstanding_present]
    rfl
  · obtain ⟨hresp, -, -, -, -⟩ := accept_frame d s.pop
    rw [outstanding_accept hs.pop, hpop hm, State.answered, hresp]
    rfl
  · rw [hpop hm]
    rfl
  · rw [eq_replied_of_step h hm htr, answered_add_outstanding_replied hs.pop htr, hpop hm]
    rfl
  · rw [outstanding_keyWrite hs.pop, hpop hm]
    rfl
  · exact absurd hm hr

/-! ### Runs to rest -/

/-- The states of which O49 speaks: the invariant holds, and what is scheduled can be carried out and abandons
nothing. -/
structure State.Settling (s : State) : Prop where
  inv : s.Inv
  presentsExist : s.presentsExist
  noReset : Move.reset ∉ s.schedule

theorem State.Settling.exists_step {s : State} (h : s.Settling) : ∃ t, step s = .next t :=
  exists_step_of_present_lt fun c r hm =>
    h.presentsExist c r (mem_schedule_of_nextMove hm (by simp) (by simp))

theorem State.Settling.nextMove_ne_reset {s : State} (h : s.Settling) : nextMove s ≠ some .reset :=
  fun hm => h.noReset (mem_schedule_of_nextMove hm (by simp) (by simp))

theorem State.Settling.step {s t : State} (h : s.Settling) (hst : step s = .next t) : t.Settling := by
  have hsub {m : Move} (hm : m ∈ t.schedule) : m ∈ s.schedule :=
    List.mem_of_mem_tail (step_schedule hst ▸ hm)
  exact ⟨stepKeepsInvariant s t h.inv hst, fun c r hm => h.presentsExist c r (hsub hm),
    fun hm => h.noReset (hsub hm)⟩

/-- Any number of moves from `movesLeft` on brings the block to rest, and no request is lost. -/
theorem State.Settling.run {n : Nat} {s : State} (h : s.Settling) (hn : s.movesLeft ≤ n) :
    ∃ u, core.run n s = .next u ∧ u.movesLeft = 0
      ∧ ∀ c, u.answered c + u.outstanding c = s.answered c + s.outstanding c := by
  induction n generalizing s with
  | zero => exact ⟨s, run_zero s, Nat.le_zero.mp hn, fun _ => rfl⟩
  | succ n ih =>
    obtain ⟨t, ht⟩ := h.exists_step
    have hle := movesLeft_le_of_step ht
    obtain ⟨u, hu, hrest, hcount⟩ := ih (h.step ht) (by omega)
    exact ⟨u, (run_succ_of_step n ht).trans hu, hrest, fun c =>
      (hcount c).trans (answered_add_outstanding_step h.inv h.nextMove_ne_reset ht c)⟩

/-- Settles O49: the run of `movesLeft` moves ends at rest, where nothing is outstanding. -/
theorem everyRequestAnswered : Obligations.EveryRequestAnswered := by
  intro s hs hp hr
  obtain ⟨u, hu, hrest, hcount⟩ := State.Settling.run ⟨hs, hp, hr⟩ le_rfl
  obtain ⟨hsched, hchan, hwait⟩ := movesLeft_eq_zero_iff.mp hrest
  refine ⟨u, hu, hsched, hchan, hwait, fun c => ?_⟩
  have hout : u.outstanding c = 0 := by simp [State.outstanding, hsched, hchan, hwait]
  rw [← hcount c, hout, Nat.add_zero]

end Sys2Proof.Machine
end

section
/-! The reply to a transaction against the response function of R37, and what R31, R32 and R47 say of it. -/

namespace Sys2Proof.Machine

/-! ### The forms of a reply -/

/-- How a transaction can be answered, as a function of the free value number, where R37 expects the first index. An
error delivers its STATUS with any values beside it; a completed operation delivers its response, or, if the key
changed, any word of its width (R47). -/
inductive ReplyForm (changed : Bool) : Except Status Response → (Nat → Response × Bool) → Prop
  | error {e : Status} (he : e ≠ .ok) : ReplyForm changed (.error e) fun d => (errorResponse e d, true)
  | word (w : ResultWidth) (r : BitVec (widthBits w)) (sgn : Bool) :
      ReplyForm changed (.ok (okResponse w r sgn)) fun _ => (okResponse w r sgn, false)
  | anyWord (w : ResultWidth) (r : BitVec (widthBits w)) (sgn : Bool) (h : changed = true) :
      ReplyForm changed (.ok (okResponse w r sgn))
        fun d => (okResponse w ((Config.freeResult d).setWidth (widthBits w)) sgn, true)

theorem keyedReply_form (w : ResultWidth) (r : BitVec (widthBits w)) (sgn changed : Bool) :
    ReplyForm changed (.ok (okResponse w r sgn)) (keyedReply w r sgn changed) := by
  cases changed with
  | false => exact .word w r sgn
  | true => exact .anyWord w r sgn rfl

theorem ReplyForm.of_eq {changed : Bool} {x y : Except Status Response} {f g : Nat → Response × Bool}
    (h : ReplyForm changed x f) (hx : y = x) (hf : ∀ d, g d = f d) : ReplyForm changed y g := by
  rwa [hx, funext hf]

/-- The operand of FMIX32 is the low half of ARG, as R37's function takes it. -/
theorem operandFmix32_eq (r : Request) : operandFmix32 r = r.arg.setWidth 32 := by
  apply BitVec.eq_of_toNat_eq
  simp [operandFmix32]

/-- Each operation's reply has one of the forms, for the response that R37 expects. -/
theorem instrReply_form {i : Instr} {t : Transaction} (hd : decode t.req.cmd = .ok i) (m : Memory) :
    ReplyForm t.keyChanged (respondTo t.req (keyByte m t.req)) (instrReply i t m) := by
  cases i with
  | fmix32 =>
    by_cases h : argHigh t.req = 0
    · have harg := (argHigh_eq_zero_iff t.req).mp h
      exact (ReplyForm.word .w32 (fmix32 (operandFmix32 t.req)) false).of_eq
        (by simp only [respondTo, hd, if_pos harg, operandFmix32_eq]; rfl) fun _ => if_neg (not_not.mpr h)
    · have harg := mt (argHigh_eq_zero_iff t.req).mpr h
      exact (ReplyForm.error (e := .illegalOperand) (by decide)).of_eq
        (by simp only [respondTo, hd, if_neg harg]) fun _ => if_pos h
  | fmix64 =>
    exact (ReplyForm.word .w64 (fmix64 t.req.arg) false).of_eq (by simp only [respondTo, hd]; rfl) fun _ => rfl
  | hash32 sgn =>
    exact (keyedReply_form .w32 _ sgn _).of_eq (by simp only [respondTo, hd]; rfl) fun _ => rfl
  | hash128x64 sgn =>
    exact (keyedReply_form .w128 _ sgn _).of_eq (by simp only [respondTo, hd]; rfl) fun _ => rfl
  | hash sgn =>
    rcases hashWidth_cases t.req with ⟨hw, hh⟩ | ⟨hw, hh⟩ | ⟨hn32, hn128, hh⟩
    · have h32 : t.req.width.toNat = 32 := congrArg BitVec.toNat hw
      exact (keyedReply_form .w32 (hash32 (keyByte m t.req) (keyLength t.req) t.req.seed) sgn _).of_eq
        (by simp only [respondTo, hd, if_pos h32]; rfl) fun d => by simp only [instrReply, hh]; rfl
    · have h128 : t.req.width.toNat = 128 := congrArg BitVec.toNat hw
      have h32 : t.req.width.toNat ≠ 32 := by omega
      exact (keyedReply_form .w128 (hash128x64 (keyByte m t.req) (keyLength t.req) t.req.seed) sgn _).of_eq
        (by simp only [respondTo, hd, if_neg h32, if_pos h128]; rfl) fun d => by simp only [instrReply, hh]; rfl
    · have h32 : t.req.width.toNat ≠ 32 := fun h => hn32 (BitVec.eq_of_toNat_eq h)
      have h128 : t.req.width.toNat ≠ 128 := fun h => hn128 (BitVec.eq_of_toNat_eq h)
      exact (ReplyForm.error (e := .invalidWidth) (by decide)).of_eq
        (by simp only [respondTo, hd, if_neg h32, if_neg h128]) fun d => by simp only [instrReply, hh]

/-- The reply to any transaction has one of the forms, its command word legal or not (R144). -/
theorem reply_form (t : Transaction) (m : Memory) :
    ReplyForm t.keyChanged (respondTo t.req (keyByte m t.req)) (reply t m) := by
  cases hd : decode t.req.cmd with
  | error e =>
    exact (ReplyForm.error (e := .illegalCommand) (by decide)).of_eq
      (by simp only [respondTo, hd]) fun d => by simp only [reply, hd]
  | ok i => exact (instrReply_form hd m).of_eq rfl fun d => by simp only [reply, hd]

/-! ### What the forms have in common -/

theorem errorResponse_status_ne_zero {e : Status} (he : e ≠ .ok) (d : Nat) :
    (errorResponse e d).status ≠ 0 := by
  cases e with
  | ok => exact absurd rfl he
  | invalidWidth => exact (by decide : (1 : BitVec 2) ≠ 0)
  | illegalCommand => exact (by decide : (2 : BitVec 2) ≠ 0)
  | illegalOperand => exact (by decide : (3 : BitVec 2) ≠ 0)

section
variable {changed : Bool} {x : Except Status Response} {f : Nat → Response × Bool}

/-- STATUS does not depend on the free value. -/
theorem ReplyForm.status_eq (h : ReplyForm changed x f) (d d' : Nat) : (f d).1.status = (f d').1.status := by
  cases h <;> rfl

/-- Nor does it whether a free value is drawn. -/
theorem ReplyForm.draws_eq (h : ReplyForm changed x f) (d d' : Nat) : (f d).2 = (f d').2 := by
  cases h <;> rfl

/-- An OK response to a transaction with a stable key does not depend on the free value at all. -/
theorem ReplyForm.eq_of_stable (h : ReplyForm changed x f) (hc : changed = false) {d : Nat}
    (hok : (f d).1.status = 0) (d' : Nat) : f d = f d' := by
  cases h with
  | error he => exact absurd hok (errorResponse_status_ne_zero he d)
  | word w r sgn => rfl
  | anyWord w r sgn h => simp [hc] at h

theorem ReplyForm.admits (h : ReplyForm changed x f) (hc : changed = false) (d : Nat) :
    admits x (f d).1 := by
  cases h with
  | error he => rfl
  | word w r sgn => rfl
  | anyWord w r sgn h => simp [hc] at h

end

@[simp] theorem widthOfCode_widthCode (w : ResultWidth) : widthOfCode (widthCode w) = some w := by
  cases w <;> rfl

/-- RESULT is the zero-extended word (R31). -/
theorem okResponse_result_lt {w : ResultWidth} (r : BitVec (widthBits w)) (sgn : Bool) :
    (okResponse w r sgn).result.toNat < 2 ^ widthBits w := by
  simp only [okResponse, BitVec.toNat_setWidth]
  exact (Nat.mod_le _ _).trans_lt r.isLt

/-- Two OK responses of one width and signedness differ below bit N alone (R47). -/
theorem admitsDisturbed_okResponse {w : ResultWidth} (r v : BitVec (widthBits w)) (sgn : Bool) :
    admitsDisturbed (.ok (okResponse w r sgn)) (okResponse w v sgn) := by
  refine ⟨rfl, rfl, rfl, fun w' hw' => ?_⟩
  cases (widthOfCode_widthCode w).symm.trans hw'
  exact okResponse_result_lt v sgn

theorem ReplyForm.admitsDisturbed {changed : Bool} {x : Except Status Response} {f : Nat → Response × Bool}
    (h : ReplyForm changed x f) (d : Nat) : admitsDisturbed x (f d).1 := by
  cases h with
  | error he => rfl
  | word w r sgn => exact admitsDisturbed_okResponse r r sgn
  | anyWord w r sgn h => exact admitsDisturbed_okResponse r _ sgn

/-- Settles O33: the machine delivers `reply`, whose forms are those that R37 and R47 allow. -/
theorem respondMatchesRule37 : Obligations.RespondMatchesRule37 := by
  intro s c t ht
  have hform := reply_form t s.mem
  exact ⟨_, _, respond_eq ht, rfl, tableGet_tableErase_self c _, fun hc => hform.admits hc _,
    fun _ => hform.admitsDisturbed _⟩

/-! ### The width an operation's result has -/

/-- The operations that produce a result of each width (R81, R83, R98, R118, R130). -/
def Produces (i : Instr) (r : Request) : ResultWidth → Prop
  | .w32 => i.op = 0 ∨ i.op = 2 ∨ (i.op = 4 ∧ r.width = 32)
  | .w64 => i.op = 1
  | .w128 => i.op = 3 ∨ (i.op = 4 ∧ r.width = 128)

/-- No operation produces two widths from one request: the clauses of `Produces` name different OP codes, and HASH
appears with different values of WIDTH. -/
theorem Produces.unique {i : Instr} {r : Request} {w w' : ResultWidth} (h : Produces i r w)
    (h' : Produces i r w') : w = w' := by
  cases w <;> cases w' <;> simp only [Produces] at h h' ⊢ <;> bv_omega

theorem widthCode_injective : Function.Injective widthCode := fun w w' h => by
  have := congrArg widthOfCode h
  simpa using this

/-- The tag of an OK response tells which operations it can be from. -/
theorem Produces.widthCode_eq_iff {i : Instr} {r : Request} {w : ResultWidth} (h : Produces i r w)
    (w' : ResultWidth) : widthCode w = widthCode w' ↔ Produces i r w' :=
  ⟨fun he => widthCode_injective he ▸ h, fun h' => congrArg widthCode (h.unique h')⟩

theorem keyedReply_eq_okResponse (w : ResultWidth) (r : BitVec (widthBits w)) (sgn changed : Bool) (d : Nat) :
    ∃ v : BitVec (widthBits w), (keyedReply w r sgn changed d).1 = okResponse w v sgn := by
  cases changed with
  | false => exact ⟨r, rfl⟩
  | true => exact ⟨_, rfl⟩

/-- An operation that answers OK delivers a word of the width it produces, with its own SGN. -/
theorem instrReply_eq_okResponse {i : Instr} {t : Transaction} {m : Memory} {d : Nat}
    (hok : (instrReply i t m d).1.status = 0) :
    ∃ w, Produces i t.req w ∧ ∃ v : BitVec (widthBits w), (instrReply i t m d).1 = okResponse w v i.sgn := by
  cases i with
  | fmix32 =>
    by_cases h : argHigh t.req = 0
    · exact ⟨.w32, .inl rfl, _, congrArg Prod.fst (if_neg (not_not.mpr h))⟩
    · have herr : instrReply .fmix32 t m d = (errorResponse .illegalOperand d, true) := if_pos h
      rw [herr] at hok
      exact absurd hok (errorResponse_status_ne_zero (by decide) d)
  | fmix64 => exact ⟨.w64, rfl, _, rfl⟩
  | hash32 sgn => exact ⟨.w32, .inr (.inl rfl), keyedReply_eq_okResponse .w32 _ sgn _ d⟩
  | hash128x64 sgn => exact ⟨.w128, .inl rfl, keyedReply_eq_okResponse .w128 _ sgn _ d⟩
  | hash sgn =>
    rcases hashWidth_cases t.req with ⟨hw, hh⟩ | ⟨hw, hh⟩ | ⟨-, -, hh⟩
    · simp only [instrReply, hh]
      exact ⟨.w32, .inr (.inr ⟨rfl, hw⟩), keyedReply_eq_okResponse .w32 _ sgn _ d⟩
    · simp only [instrReply, hh]
      exact ⟨.w128, .inr ⟨rfl, hw⟩, keyedReply_eq_okResponse .w128 _ sgn _ d⟩
    · simp only [instrReply, hh] at hok
      exact absurd hok (errorResponse_status_ne_zero (by decide) d)

/-- Settles O29: an OK response is a word of the one width that the operation produces. -/
theorem okResponseShape : Obligations.OkResponseShape := by
  intro i s s' h
  obtain ⟨c, t, hs, ht, rfl⟩ := exec_eq_next h
  refine ⟨c, t, _, hs, ht, rfl, fun hok => ?_⟩
  obtain ⟨w, hw, v, hv⟩ := instrReply_eq_okResponse hok
  rw [hv]
  exact ⟨rfl, ⟨w, widthOfCode_widthCode w, okResponse_result_lt v _⟩, hw.widthCode_eq_iff .w32,
    hw.widthCode_eq_iff .w64, hw.widthCode_eq_iff .w128⟩

end Sys2Proof.Machine
end

section
/-! The statements on what a step does to one channel and what it leaves alone (R35, R36, R165). -/

namespace Sys2Proof.Machine

/-! ### Frames -/

/-- Settles O34: an operation gives a next state only by delivering its reply. -/
theorem execFrame : Obligations.ExecFrame := by
  intro i s s' h
  obtain ⟨c, t, hs, -, rfl⟩ := exec_eq_next h
  have hdraw := Bool.toNat_le (instrReply i t s.mem s.freeDraws).2
  refine ⟨c, _, hs, rfl, tableGet_tableErase_self c _, fun d hd => tableGet_tableErase_of_ne hd _,
    fun _ => rfl, rfl, rfl, ?_, ?_⟩ <;> rw [State.replied_freeDraws] <;> omega

/-! ### A channel over a step -/

theorem answered_replied_of_ne (s : State) {c d : Nat} (h : d ≠ c) (x : Response × Bool) :
    (s.replied d x).answered c = s.answered c := by
  simp [State.answered, h]

/-- Settles O42: only the channel's own answer, or reset, takes its request away. -/
theorem requestStaysUntilAnswered : Obligations.RequestStaysUntilAnswered := by
  intro s u c t h ht
  rcases step_cases h with ⟨-, rfl⟩ | ⟨d, r, -, -, rfl⟩ | ⟨d, -, rfl⟩ | ⟨d, -, -, rfl⟩
    | ⟨d, tr, p, hm, htr, -⟩ | ⟨v, o, b, -, rfl⟩ | ⟨hm, rfl⟩
  · exact .inl ⟨t, ht, rfl, id, rfl⟩
  · exact .inl ⟨t, ht, rfl, id, rfl⟩
  · obtain ⟨hresp, -, -, -, -⟩ := accept_frame d s.pop
    exact .inl ⟨t, tableGet_accept_of_busy (s := s.pop) ht d, rfl, id, congrArg _ hresp⟩
  · exact .inl ⟨t, ht, rfl, id, rfl⟩
  · rw [eq_replied_of_step h hm htr]
    by_cases hd : d = c
    · subst hd
      exact .inr (.inl ⟨hm, tableGet_tableErase_self d _, _, rfl⟩)
    · exact .inl ⟨t, (tableGet_tableErase_of_ne (Ne.symm hd) _).trans ht, rfl, id,
        answered_replied_of_ne s.pop hd _⟩
  · refine .inl ⟨_, (tableGet_keyWrite v o b s.pop c).trans (congrArg _ ht), rfl, fun hk => ?_, rfl⟩
    simp [markKeyChange, hk]
  · exact .inr (.inr ⟨hm, rfl, rfl⟩)

/-! ### Presenting, accepting, answering -/

/-- Settles O40: whether the channel exists decides it, and nothing else of the state. -/
theorem presentedRequestWaits : Obligations.PresentedRequestWaits := by
  intro s c r hm
  rw [step_of_move hm]
  exact ⟨fun hc => if_pos hc, fun hc => if_neg (Nat.not_lt.mpr hc)⟩

/-- Settles O43: the request taken is the one behind the requests of other channels. -/
theorem acceptIssuesOldest : Obligations.AcceptIssuesOldest := by
  intro s c r before after hm hc hw hb
  have htake : takeFirst c s.pop.waiting = some (r, before ++ after) := by
    rw [State.pop_waiting, hw, takeFirst_append hb]
  rw [step_of_move hm]
  exact congrArg Host.Outcome.next (accept_eq (s := s.pop) hc htake)

/-- Settles O45: the step is the response of the channel, which is its operation. -/
theorem stepRunsDecoded : Obligations.StepRunsDecoded := by
  intro s c t i hm ht hd
  rw [step_of_move hm]
  exact respond_busy (s := s.pop) ht hd

/-! ### Two answers -/

theorem tableErase_comm {α : Type} (j k : Nat) (l : List (Nat × α)) :
    tableErase j (tableErase k l) = tableErase k (tableErase j l) := by
  simp only [tableErase, List.filter_filter, Bool.and_comm]

/-- Two scheduled answers on two Busy channels: the second finds its transaction and the key as they were, and the
free value number that the first has left. -/
theorem run_two_responds {s : State} {c d : Nat} {t t' : Transaction} (hne : c ≠ d)
    (hc : tableGet c s.channels = some t) (hd : tableGet d s.channels = some t') :
    ∃ n, core.run 2 { s with schedule := [.respond c, .respond d] }
      = .next ((State.replied { s with schedule := [] } c (reply t s.mem s.freeDraws)).replied d
          (reply t' s.mem n)) := by
  have hfirst : step { s with schedule := [.respond c, .respond d] }
      = .next (State.replied { s with schedule := [.respond d] } c (reply t s.mem s.freeDraws)) :=
    step_respond_eq rfl hc
  have hd' : tableGet d (tableErase c s.channels) = some t' :=
    (tableGet_tableErase_of_ne hne.symm _).trans hd
  rw [run_succ_of_step 1 hfirst]
  exact ⟨_, run_succ_of_step 0 (step_respond_eq rfl hd')⟩

/-- Two replies delivered in either order leave the same state but for the record, if the same free values are drawn. -/
theorem replied_comm (s : State) (c d : Nat) (x x' y y' : Response × Bool) (hx : x.2 = x'.2) (hy : y.2 = y'.2) :
    ((s.replied c x).replied d y).channels = ((s.replied d y').replied c x').channels
      ∧ ((s.replied c x).replied d y).mem = ((s.replied d y').replied c x').mem
      ∧ ((s.replied c x).replied d y).waiting = ((s.replied d y').replied c x').waiting
      ∧ ((s.replied c x).replied d y).freeDraws = ((s.replied d y').replied c x').freeDraws := by
  refine ⟨tableErase_comm d c s.channels, rfl, rfl, ?_⟩
  simp only [State.replied_freeDraws, hx, hy]
  omega

/-- Settles O52: what differs between the orders is the free value number at each reply, on which neither the
STATUS, nor the number of draws, nor an OK response with a stable key depends. -/
theorem respondOrderIrrelevant : Obligations.RespondOrderIrrelevant := by
  intro s c d t t' hne hc hd
  obtain ⟨n, hu⟩ := run_two_responds hne hc hd
  obtain ⟨n', hv⟩ := run_two_responds hne.symm hd hc
  have hform := reply_form t s.mem
  have hform' := reply_form t' s.mem
  obtain ⟨hchan, hmem, hwait, hdraws⟩ := replied_comm { s with schedule := [] } c d
    (reply t s.mem s.freeDraws) (reply t s.mem n') (reply t' s.mem n) (reply t' s.mem s.freeDraws)
    (hform.draws_eq _ _) (hform'.draws_eq _ _)
  exact ⟨_, _, (reply t s.mem s.freeDraws).1, (reply t' s.mem n).1, (reply t s.mem n').1,
    (reply t' s.mem s.freeDraws).1, hu, hv, by simp, by simp, hchan, hmem, hwait, hdraws,
    hform.status_eq _ _, hform'.status_eq _ _,
    fun hk hok => congrArg Prod.fst (hform.eq_of_stable hk hok n'),
    fun hk hok => congrArg Prod.fst (hform'.eq_of_stable hk hok s.freeDraws)⟩

end Sys2Proof.Machine
end

section
/-! SUPPORT. The hashes depend on the key bytes below L alone (R46, R93, R94, R113, R114), and so does the response of
R37; of a disturbed response nothing at all depends on the key (R47). -/

namespace Sys2Proof.Machine

theorem packTail_congr {w : Nat} {K K' : Nat → Byte} {base n : Nat}
    (h : ∀ j, j < n → K (base + j) = K' (base + j)) : packTail w K base n = packTail w K' base n := by
  induction n with
  | zero => rfl
  | succ n ih => rw [packTail, packTail, ih fun j hj => h j (by omega), h n (by omega)]

section
variable {K K' : Nat → Byte} {L : Nat} (h : ∀ i, i < L → K i = K' i)
include h

theorem memRead32_congr {i : Nat} (hi : i + 4 ≤ L) : memRead32 K i = memRead32 K' i := by
  rw [memRead32, memRead32, memReadNat_congr fun j hj => h (i + j) (by omega)]

theorem memRead64_congr {i : Nat} (hi : i + 8 ≤ L) : memRead64 K i = memRead64 K' i := by
  rw [memRead64, memRead64, memReadNat_congr fun j hj => h (i + j) (by omega)]

theorem packTail_congr_of_le {w base n : Nat} (hn : base + n ≤ L) :
    packTail w K base n = packTail w K' base n :=
  packTail_congr fun j hj => h (base + j) (by omega)

theorem blocks32_congr (h1 : W32) {n : Nat} (hn : 4 * n ≤ L) : blocks32 K h1 n = blocks32 K' h1 n := by
  induction n with
  | zero => rfl
  | succ n ih => rw [blocks32, blocks32, ih (by omega), memRead32_congr h (by omega)]

theorem blocks64_congr (h12 : Lanes) {n : Nat} (hn : 16 * n ≤ L) : blocks64 K h12 n = blocks64 K' h12 n := by
  induction n with
  | zero => rfl
  | succ n ih =>
    rw [blocks64, blocks64, ih (by omega), memRead64_congr h (by omega), memRead64_congr h (by omega)]

theorem tail32_congr {base t : Nat} (ht : base + t ≤ L) (h1 : W32) : tail32 K base t h1 = tail32 K' base t h1 := by
  rw [tail32, tail32, packTail_congr_of_le h ht]

/-- The second lane's bytes begin at offset 8 of the tail, and are read only if there are any. -/
theorem tail64_congr {base t : Nat} (ht : base + t ≤ L) (h12 : Lanes) :
    tail64 K base t h12 = tail64 K' base t h12 := by
  have hlow : packTail 64 K base (min t 8) = packTail 64 K' base (min t 8) :=
    packTail_congr_of_le h (by omega)
  by_cases h8 : 8 < t
  · have hhigh : packTail 64 K (base + 8) (t - 8) = packTail 64 K' (base + 8) (t - 8) :=
      packTail_congr_of_le h (by omega)
    simp only [tail64, hlow, hhigh]
  · simp only [tail64, hlow, if_neg h8]

theorem hash32_congr (seed : W32) : hash32 K L seed = hash32 K' L seed := by
  rw [hash32, hash32, blocks32_congr h seed (by omega), tail32_congr h (by omega)]

theorem hash128x64_congr (seed : W32) : hash128x64 K L seed = hash128x64 K' L seed := by
  rw [hash128x64, hash128x64, blocks64_congr h _ (by omega), tail64_congr h (by omega)]

end

/-- R46 for the response function: it reads the key below KLEN only. -/
theorem respondTo_congr {r : Request} {K K' : Nat → Byte} (h : ∀ i, i < r.klen.toNat → K i = K' i) :
    respondTo r K = respondTo r K' := by
  simp only [respondTo, hash32_congr h, hash128x64_congr h]

/-- What R47 leaves of an OK response does not depend on its result word. -/
theorem admitsDisturbed_okResponse_congr {n : Nat} {w : ResultWidth} {x : BitVec n} (y : BitVec n) {sgn : Bool}
    {p : Response} (h : admitsDisturbed (.ok (okResponse w x sgn)) p) :
    admitsDisturbed (.ok (okResponse w y sgn)) p := h

/-- What R47 leaves of a response does not depend on the key: the key decides nothing but the result word of a
hash. -/
theorem admitsDisturbed_respondTo_congr {r : Request} {K : Nat → Byte} (K' : Nat → Byte) {p : Response}
    (h : admitsDisturbed (respondTo r K) p) : admitsDisturbed (respondTo r K') p := by
  unfold respondTo at h ⊢
  cases hd : decode r.cmd with
  | error e => simpa only [hd] using h
  | ok i =>
    simp only [hd] at h ⊢
    cases i with
    | fmix32 => exact h
    | fmix64 => exact h
    | hash32 sgn => exact admitsDisturbed_okResponse_congr _ h
    | hash128x64 sgn => exact admitsDisturbed_okResponse_congr _ h
    | hash sgn =>
      by_cases h32 : r.width.toNat = 32
      · simp only [if_pos h32] at h ⊢
        exact admitsDisturbed_okResponse_congr _ h
      · by_cases h128 : r.width.toNat = 128
        · simp only [if_neg h32, if_pos h128] at h ⊢
          exact admitsDisturbed_okResponse_congr _ h
        · simpa only [if_neg h32, if_neg h128] using h

end Sys2Proof.Machine
end

section
/-! SUPPORT. Key memory over a step (R41, R47), and what a hash does when its key changed. -/

namespace Sys2Proof.Machine

/-- A step leaves the key memory alone, or it is a host's write. -/
theorem step_mem_cases {s u : State} (h : step s = .next u) :
    u.mem = s.mem ∨ ∃ v o b, nextMove s = some (.keyWrite v o b) ∧ u = keyWrite v o b s.pop := by
  rcases step_cases h with ⟨-, rfl⟩ | ⟨d, r, -, -, rfl⟩ | ⟨d, -, rfl⟩ | ⟨d, -, -, rfl⟩
    | ⟨d, tr, p, hm, htr, -⟩ | hw | ⟨-, rfl⟩
  · exact .inl rfl
  · exact .inl rfl
  · obtain ⟨-, hmem, -, -, -⟩ := accept_frame d s.pop
    exact .inl hmem
  · exact .inl rfl
  · rw [eq_replied_of_step h hm htr]
    exact .inl rfl
  · exact .inr hw
  · exact .inl rfl

/-- When a host's write leaves a transaction marked (R47, log 7). -/
theorem markKeyChange_keyChanged_iff {v : Nat} {o : W32} {changes : Bool} {t : Transaction} :
    (markKeyChange v o changes t).keyChanged = true
      ↔ t.keyChanged = true ∨ (t.req.view = v ∧ o.toNat < t.req.klen.toNat ∧ changes = true) := by
  simp only [markKeyChange, inKeyView, Bool.or_eq_true, Bool.and_eq_true, decide_eq_true_eq]
  rw [keyLength]
  tauto

/-- A write that leaves a transaction unmarked changes no byte of its key view. -/
theorem keyByte_write_of_not_marked {m : Memory} {v : Nat} {o : W32} {b : Byte} {t : Transaction}
    (h : (markKeyChange v o (decide (m.read (keyAddr v o.toNat) ≠ b)) t).keyChanged = false) {i : Nat}
    (hi : i < t.req.klen.toNat) : keyByte (m.write (keyAddr v o.toNat) b) t.req i = keyByte m t.req i := by
  unfold keyByte
  by_cases ha : keyAddr t.req.view i = keyAddr v o.toNat
  · obtain ⟨hv, rfl⟩ := keyAddr_inj (hi.trans t.req.klen.isLt) o.isLt ha
    rw [ha, Memory.read_write_self]
    by_contra hb
    have hmark := markKeyChange_keyChanged_iff.mpr (.inr ⟨hv, hi, decide_eq_true (Ne.symm hb)⟩)
    exact absurd (hmark.symm.trans h) (by decide)
  · exact Memory.read_write_of_ne m ha b

/-- An operation that reads a key that changed answers with a free word of its width (R47). -/
theorem exec_keyed_changed {n : Nat} {i : Instr} {s : State} {c : Nat} {t : Transaction} {w : ResultWidth}
    {r : BitVec n} {sgn : Bool} (hs : s.serving = some c) (hk : t.keyChanged = true)
    (he : exec i s = returnKeyed w r sgn t s) :
    ∃ v : BitVec n, exec i s = .next
      { s with
        channels := tableErase c s.channels
        responses := s.responses ++ [(c, okResponse w v sgn)]
        serving := none
        freeDraws := s.freeDraws + 1 } :=
  ⟨_, he.trans (returnKeyed_changed hs w r sgn hk)⟩

theorem exec_hash32_of_current {s : State} {t : Transaction} (hc : s.current = some t) (sgn : Bool) :
    exec (.hash32 sgn) s
      = returnKeyed .w32 (hash32 (keyByte s.mem t.req) (keyLength t.req) t.req.seed) sgn t s := by
  simp only [exec, execHash32, hc]

theorem exec_hash128x64_of_current {s : State} {t : Transaction} (hc : s.current = some t) (sgn : Bool) :
    exec (.hash128x64 sgn) s
      = returnKeyed .w128 (hash128x64 (keyByte s.mem t.req) (keyLength t.req) t.req.seed) sgn t s := by
  simp only [exec, execHash128x64, hc]

/-- R131: with WIDTH = 32 the dispatcher is HASH32. -/
theorem exec_hash_of_width32 {s : State} {t : Transaction} (hc : s.current = some t)
    (hw : t.req.width = 32) (sgn : Bool) : exec (.hash sgn) s = exec (.hash32 sgn) s := by
  have hh : hashWidth t.req = some .width32 := if_pos hw
  simp only [exec, execHash, execHash32, hc, hh]

/-- R131: with WIDTH = 128 the dispatcher is HASH128X64. -/
theorem exec_hash_of_width128 {s : State} {t : Transaction} (hc : s.current = some t)
    (hw : t.req.width = 128) (sgn : Bool) : exec (.hash sgn) s = exec (.hash128x64 sgn) s := by
  have hh : hashWidth t.req = some .width128 := by
    rw [hashWidth, hw]
    decide
  simp only [exec, execHash, execHash128x64, hc, hh]

end Sys2Proof.Machine
end

section
/-! The statements of spec/20_memory.md: what the operations read of the key, who changes it, and what a change does to
the transactions in progress. -/

namespace Sys2Proof.Machine

/-- Settles O16: every block and every tail lies below L. -/
theorem hashesReadOnlyTheKey : Obligations.HashesReadOnlyTheKey :=
  fun _ _ _ seed h => ⟨hash32_congr h seed, hash128x64_congr h seed⟩

/-- Settles O28: each hash ends in the keyed return, which draws a free word; the dispatcher is the hash that WIDTH
selects. -/
theorem keyChangedResponse : Obligations.KeyChangedResponse := by
  intro sgn s c t hs ht hk
  have hc := State.current_of_serving hs ht
  have h32 := exec_keyed_changed hs hk (exec_hash32_of_current hc sgn)
  obtain ⟨v, hv⟩ := exec_keyed_changed hs hk (exec_hash128x64_of_current hc sgn)
  simp only [okResponse, BitVec.setWidth_eq] at hv
  exact ⟨h32, ⟨v, hv⟩, fun hw => by rwa [exec_hash_of_width32 hc hw],
    fun hw => ⟨v, by rwa [exec_hash_of_width128 hc hw]⟩⟩

/-- Settles O35: the one move that writes memory is the host's, and it writes one byte. -/
theorem keyBytesChangeOnlyByHost : Obligations.KeyBytesChangeOnlyByHost := by
  intro s u a h
  rcases step_mem_cases h with hmem | ⟨v, o, b, hm, rfl⟩
  · exact .inl (by rw [hmem])
  · by_cases ha : a = keyAddr v o.toNat
    · exact .inr ⟨v, o, b, hm, ha, by rw [ha, keyWrite_mem, Memory.read_write_self]⟩
    · exact .inl (Memory.read_write_of_ne s.mem ha b)

/-- Settles O36: each channel holds what it held, marked as `markKeyChange` says. -/
theorem keyWriteMarksTransactions : Obligations.KeyWriteMarksTransactions := by
  intro s v o b hm
  have hget := tableGet_keyWrite v o b s.pop
  refine ⟨_, step_of_move hm, Memory.read_write_self s.mem _ b, fun c hc => ?_, fun c t ht => ?_, rfl, rfl, rfl⟩
  · exact (hget c).trans (congrArg _ hc)
  · refine ⟨_, (hget c).trans (congrArg _ ht), rfl, ?_⟩
    rw [markKeyChange_keyChanged_iff, decide_eq_true_eq, State.pop_mem]

/-- Settles O37: a step other than a write changes no key byte, and a write that changes one in the view marks the
transaction. -/
theorem stableKeyBytes : Obligations.StableKeyBytes := by
  intro s u c t t' h ht ht' hk i hi
  rcases step_mem_cases h with hmem | ⟨v, o, b, -, rfl⟩
  · rcases requestStaysUntilAnswered s u c t h ht with ⟨t'', hu, hreq, -, -⟩ | ⟨-, hu, -⟩ | ⟨-, hu, -⟩
    · cases hu.symm.trans ht'
      rw [hmem, hreq]
    · cases hu.symm.trans ht'
    · cases hu.symm.trans ht'
  · have hmark := (tableGet_keyWrite v o b s.pop c).trans (congrArg _ ht)
    cases hmark.symm.trans ht'
    exact keyByte_write_of_not_marked hk hi

/-! ### From the issue to the response -/

/-- Channel `c` holds `r`, and unless it is marked the bytes of its key view are those of the memory `m` at its
issue (R47, R49). -/
def State.HoldsSince (s : State) (m : Memory) (c : Nat) (r : Request) : Prop :=
  ∃ t, tableGet c s.channels = some t ∧ t.req = r
    ∧ (t.keyChanged = false → ∀ i, i < r.klen.toNat → keyByte s.mem r i = keyByte m r i)

/-- A step that neither answers the channel nor resets keeps it: a mark stays, and unmarked the bytes stay. -/
theorem State.HoldsSince.step {s u : State} {m : Memory} {c : Nat} {r : Request} (h : s.HoldsSince m c r)
    (hc : nextMove s ≠ some (.respond c)) (hr : nextMove s ≠ some .reset) (hsu : step s = .next u) :
    u.HoldsSince m c r := by
  obtain ⟨t, ht, rfl, hkey⟩ := h
  rcases requestStaysUntilAnswered s u c t hsu ht with ⟨t', ht', hreq, hmono, -⟩ | ⟨hm, -, -⟩ | ⟨hm, -, -⟩
  · refine ⟨t', ht', hreq, fun hk i hi => ?_⟩
    have hkt : t.keyChanged = false := Bool.eq_false_iff.mpr fun hck => by simp [hmono hck] at hk
    calc keyByte u.mem t.req i
        = keyByte u.mem t'.req i := by rw [hreq]
      _ = keyByte s.mem t.req i := stableKeyBytes s u c t t' hsu ht ht' hk i hi
      _ = keyByte m t.req i := hkey hkt i hi
  · exact absurd hm hc
  · exact absurd hm hr

/-- So does a run of such steps. -/
theorem State.HoldsSince.run {k : Nat} {s u : State} {m : Memory} {c : Nat} {r : Request}
    (h : s.HoldsSince m c r) (hl : s.leavesAlone c k) (hu : core.run k s = .next u) : u.HoldsSince m c r := by
  induction k generalizing s with
  | zero =>
    rw [run_zero] at hu
    cases hu
    exact h
  | succ k ih =>
    obtain ⟨v, hv, hrun⟩ := run_succ_eq_next hu
    obtain ⟨hc, hr, hnext⟩ := hl
    exact ih (h.step hc hr hv) (hnext v hv) hrun

/-- Settles O50: the key bytes below KLEN are still those of the issue, or the transaction is marked; the response
function reads no others, and what R47 leaves of it does not depend on the key. -/
theorem issueTimeKeyDecidesResponse : Obligations.IssueTimeKeyDecidesResponse := by
  intro k s u c r hs hl hu
  have hissue : s.HoldsSince s.mem c r := ⟨_, hs, rfl, fun _ _ _ => rfl⟩
  obtain ⟨t, ht, rfl, hkey⟩ := hissue.run hl hu
  have hform := reply_form t u.mem
  refine ⟨t, ht, rfl, fun hm => ⟨_, _, step_respond_eq hm ht, rfl, fun hk => ?_, fun _ => ?_⟩⟩
  · rw [← respondTo_congr (hkey hk)]
    exact hform.admits hk _
  · exact admitsDisturbed_respondTo_congr _ (hform.admitsDisturbed _)

end Sys2Proof.Machine
end

section
/-! SUPPORT. The command word is its three fields (R60), so an operation's word is the one word with the operation's
fields; and the eight words of R62 are the words of the operations. -/

namespace Sys2Proof

/-- A command word from its fields: RSV above SGN above OP (R60). -/
theorem cmd_eq_append_fields (w : W32) : w = (cmdRsv w ++ BitVec.ofBool (cmdSgn w)) ++ cmdOp w := by
  apply BitVec.eq_of_getLsbD_eq
  intro i hi
  simp only [cmdRsv, cmdSgn, cmdOp, BitVec.getLsbD_append, BitVec.getLsbD_extractLsb', BitVec.getLsbD_ofBool]
  by_cases hop : i < 3
  · simp [hop]
  · by_cases hsgn : i = 3
    · simp [hsgn]
    · simp [hop, show ¬ i - 3 < 1 by omega, show i - 3 - 1 < 28 by omega, show 4 + (i - 3 - 1) = i by omega]

/-- Two words with the same fields are the same word. -/
theorem cmd_ext {w w' : W32} (hop : cmdOp w = cmdOp w') (hsgn : cmdSgn w = cmdSgn w')
    (hrsv : cmdRsv w = cmdRsv w') : w = w' := by
  rw [cmd_eq_append_fields w, cmd_eq_append_fields w', hop, hsgn, hrsv]

/-- The fields of every operation's word. -/
theorem encode_fields (i : Instr) : Laws.EncodedFields.Statement i := by
  cases i with
  | fmix32 => exact Laws.EncodedFields.fmix32
  | fmix64 => exact Laws.EncodedFields.fmix64
  | hash32 sgn => exact Laws.EncodedFields.hash32 sgn
  | hash128x64 sgn => exact Laws.EncodedFields.hash128x64 sgn
  | hash sgn => exact Laws.EncodedFields.hash sgn

/-- The decoder reads an operation from a word whose fields are the operation's. -/
theorem decode_of_fields {w : W32} {i : Instr} (hop : cmdOp w = i.op) (hsgn : cmdSgn w = i.sgn)
    (hrsv : cmdRsv w = 0) : decode w = .ok i := by
  cases i <;> simp [decode, hop, hsgn, hrsv, Instr.op, Instr.sgn]

/-- And from no other: each arm of the decoder has tested the fields of the operation it gives. -/
theorem fields_of_decode {w : W32} {i : Instr} (h : decode w = .ok i) :
    cmdOp w = i.op ∧ cmdSgn w = i.sgn ∧ cmdRsv w = 0 := by
  unfold decode at h
  split at h
  · cases h
  next hrsv =>
  have hrsv := not_not.mp hrsv
  split at h
  case h_6 => cases h
  case h_1 hop | h_2 hop =>
    split at h
    · cases h
    next hsgn =>
    cases h
    exact ⟨BitVec.eq_of_toNat_eq hop, Bool.eq_false_iff.mpr hsgn, hrsv⟩
  case h_3 hop | h_4 hop | h_5 hop =>
    cases h
    exact ⟨BitVec.eq_of_toNat_eq hop, rfl, hrsv⟩

theorem decode_encode (i : Instr) : decode (encode i) = .ok i := by
  obtain ⟨hop, hsgn, hrsv⟩ := encode_fields i
  exact decode_of_fields hop hsgn hrsv

theorem decode_eq_ok_iff {w : W32} {i : Instr} : decode w = .ok i ↔ w = encode i := by
  refine ⟨fun h => ?_, fun h => h ▸ decode_encode i⟩
  obtain ⟨hop, hsgn, hrsv⟩ := fields_of_decode h
  obtain ⟨hop', hsgn', hrsv'⟩ := encode_fields i
  exact cmd_ext (hop.trans hop'.symm) (hsgn.trans hsgn'.symm) (hrsv.trans hrsv'.symm)

/-- The command words of R62's list. -/
def specWords : List W32 := [0x0, 0x1, 0x2, 0xA, 0x3, 0xB, 0x4, 0xC]

/-- The words of the operations are those of the list. -/
theorem exists_eq_encode_iff (w : W32) : (∃ i, w = encode i) ↔ w ∈ specWords := by
  constructor
  · rintro ⟨i, rfl⟩
    cases i with
    | fmix32 => decide
    | fmix64 => decide
    | hash32 sgn => cases sgn <;> decide
    | hash128x64 sgn => cases sgn <;> decide
    | hash sgn => cases sgn <;> decide
  · intro h
    simp only [specWords, List.mem_cons, List.not_mem_nil, or_false] at h
    obtain rfl | rfl | rfl | rfl | rfl | rfl | rfl | rfl := h
    · exact ⟨.fmix32, by decide⟩
    · exact ⟨.fmix64, by decide⟩
    · exact ⟨.hash32 false, by decide⟩
    · exact ⟨.hash32 true, by decide⟩
    · exact ⟨.hash128x64 false, by decide⟩
    · exact ⟨.hash128x64 true, by decide⟩
    · exact ⟨.hash false, by decide⟩
    · exact ⟨.hash true, by decide⟩

/-- The legality rule by the value of the word (R65): its clauses and the words they leave. -/
theorem cmdLegal_iff_clauses (w : W32) : cmdLegal w = true
    ↔ w.toNat % 8 < 5 ∧ w.toNat < 16 ∧ ¬ (w.toNat % 8 < 2 ∧ w.toNat / 8 % 2 = 1) := by
  simp only [cmdLegal, Bool.and_eq_true, decide_eq_true_eq, Bool.not_eq_true', Bool.and_eq_false_iff,
    decide_eq_false_iff_not, and_assoc, not_and_or]

/-- The clauses of R65, negated. -/
theorem cmdLegal_eq_false_iff (w : W32) : cmdLegal w = false
    ↔ 5 ≤ w.toNat % 8 ∨ 16 ≤ w.toNat ∨ (w.toNat % 8 < 2 ∧ w.toNat / 8 % 2 = 1) := by
  rw [← Bool.not_eq_true, cmdLegal_iff_clauses]
  omega

theorem cmdLegal_iff_mem (w : W32) : cmdLegal w = true ↔ w ∈ specWords := by
  rw [cmdLegal_iff_clauses]
  simp only [specWords, List.mem_cons, List.not_mem_nil, or_false, ← BitVec.toNat_inj,
    BitVec.reduceToNat]
  omega

theorem exists_decode_eq_ok_iff (w : W32) : (∃ i, decode w = .ok i) ↔ cmdLegal w = true := by
  rw [cmdLegal_iff_mem, ← exists_eq_encode_iff]
  exact exists_congr fun _ => decode_eq_ok_iff

/-- A word that breaks a clause of R65 is rejected. -/
theorem exists_decode_eq_error {w : W32} (h : cmdLegal w = false) : ∃ e, decode w = .error e := by
  cases hd : decode w with
  | error e => exact ⟨e, rfl⟩
  | ok i => simp [(exists_decode_eq_ok_iff w).mp ⟨i, hd⟩] at h

end Sys2Proof
end

section
/-! SUPPORT. What the reply to a transaction depends on (R64, R140, R144). -/

namespace Sys2Proof.Machine

/-- R25, R81: FMIX32 with a bit set above bit 31 of its operand. -/
theorem instrReply_fmix32_of_argHigh {t : Transaction} (h : 2 ^ 32 ≤ t.req.arg.toNat) (m : Memory) (d : Nat) :
    instrReply .fmix32 t m d = (errorResponse .illegalOperand d, true) :=
  if_pos (mt (argHigh_eq_zero_iff t.req).mp (Nat.not_lt.mpr h))

/-- Two transactions agree in the fields and key bytes that R64 lists for an operation. -/
def ReadsAgree (i : Instr) (t t' : Transaction) (m m' : Memory) : Prop :=
  (i.op.toNat < 2 → t.req.arg = t'.req.arg)
    ∧ (2 ≤ i.op.toNat → t.req.seed = t'.req.seed ∧ t.req.klen = t'.req.klen ∧ t.keyChanged = t'.keyChanged
        ∧ ∀ j, j < t.req.klen.toNat → keyByte m t.req j = keyByte m' t'.req j)
    ∧ (i.op = 4 → t.req.width = t'.req.width)

section
variable {t t' : Transaction} {m m' : Memory} (hseed : t.req.seed = t'.req.seed)
  (hklen : t.req.klen = t'.req.klen) (hkey : ∀ j, j < t.req.klen.toNat → keyByte m t.req j = keyByte m' t'.req j)
include hseed hklen hkey

theorem hash32_of_sameKey :
    hash32 (keyByte m t.req) (keyLength t.req) t.req.seed
      = hash32 (keyByte m' t'.req) (keyLength t'.req) t'.req.seed := by
  rw [← hseed, show keyLength t'.req = keyLength t.req from (congrArg BitVec.toNat hklen).symm]
  exact hash32_congr hkey _

theorem hash128x64_of_sameKey :
    hash128x64 (keyByte m t.req) (keyLength t.req) t.req.seed
      = hash128x64 (keyByte m' t'.req) (keyLength t'.req) t'.req.seed := by
  rw [← hseed, show keyLength t'.req = keyLength t.req from (congrArg BitVec.toNat hklen).symm]
  exact hash128x64_congr hkey _

end

/-- R64: an operation's reply depends on the fields and key bytes listed for it, and on the free value number. -/
theorem instrReply_congr {i : Instr} {t t' : Transaction} {m m' : Memory}
    (h : ReadsAgree i t t' m m') (d : Nat) : instrReply i t m d = instrReply i t' m' d := by
  obtain ⟨harg, hhash, hwidth⟩ := h
  cases i with
  | fmix32 =>
    have harg' := harg (by decide)
    have hhigh : argHigh t.req = argHigh t'.req := by rw [argHigh, argHigh, harg']
    have hlow : operandFmix32 t.req = operandFmix32 t'.req := by rw [operandFmix32, operandFmix32, harg']
    simp only [instrReply, hhigh, hlow]
  | fmix64 =>
    have harg' := harg (by decide)
    simp only [instrReply, operandFmix64, harg']
  | hash32 sgn =>
    obtain ⟨hseed, hklen, hchanged, hkey⟩ := hhash (by simp [Instr.op])
    simp only [instrReply, hash32_of_sameKey hseed hklen hkey, hchanged]
  | hash128x64 sgn =>
    obtain ⟨hseed, hklen, hchanged, hkey⟩ := hhash (by simp [Instr.op])
    simp only [instrReply, hash128x64_of_sameKey hseed hklen hkey, hchanged]
  | hash sgn =>
    obtain ⟨hseed, hklen, hchanged, hkey⟩ := hhash (by simp [Instr.op])
    simp only [instrReply, hashWidth, hwidth rfl, hash32_of_sameKey hseed hklen hkey,
      hash128x64_of_sameKey hseed hklen hkey, hchanged]

/-- So does the reply to a request, whose CMD is read first (R144). -/
theorem reply_congr {t t' : Transaction} {m m' : Memory} (hcmd : t.req.cmd = t'.req.cmd)
    (h : ∀ i, decode t.req.cmd = .ok i → ReadsAgree i t t' m m') (d : Nat) :
    reply t m d = reply t' m' d := by
  unfold reply
  rw [← hcmd]
  cases hd : decode t.req.cmd with
  | error e => rfl
  | ok i => exact instrReply_congr (h i hd) d

end Sys2Proof.Machine
end

section
/-! SUPPORT. The request of an assembler line (R68, R69), and the run of the line's moves (R163): the key is written, then
the request is presented, accepted and answered. -/

namespace Sys2Proof.Machine

/-! ### The request of a line -/

/-- The request that a line whose key fits is assembled to. -/
def asmRequest (v : Nat) (l : AsmLine) : Request where
  cmd := encode (asmInstr l)
  arg := asmArg l
  seed := asmSeed l
  width := asmWidth l
  klen := BitVec.ofNat 32 (asmKey l).length
  view := v

theorem assemble_eq_some_iff {v : Nat} {l : AsmLine} {r : Request} :
    assemble v l = some r ↔ (asmKey l).length < 2 ^ 32 ∧ asmRequest v l = r := by
  rw [assemble, Option.ite_none_right_eq_some, Option.some_inj]
  rfl

/-- KLEN is the number of key bytes: a key that fits is not cut. -/
theorem asmRequest_klen_toNat (v : Nat) {l : AsmLine} (h : (asmKey l).length < 2 ^ 32) :
    (asmRequest v l).klen.toNat = (asmKey l).length := by
  rw [asmRequest, BitVec.toNat_ofNat, Nat.mod_eq_of_lt h]

theorem decode_asmRequest (v : Nat) (l : AsmLine) : decode (asmRequest v l).cmd = .ok (asmInstr l) :=
  decode_encode _

/-- R69: what a finalizer's line leaves 0. -/
theorem asmRequest_of_finalizer (v : Nat) {l : AsmLine} (h : (asmInstr l).op.toNat < 2) :
    (asmRequest v l).seed = 0 ∧ (asmRequest v l).klen = 0 := by
  cases l with
  | fmix32 arg => exact ⟨rfl, rfl⟩
  | fmix64 arg => exact ⟨rfl, rfl⟩
  | hash32 sgn key seed => simp [asmInstr, Instr.op] at h
  | hash128x64 sgn key seed => simp [asmInstr, Instr.op] at h
  | hash sgn width key seed => simp [asmInstr, Instr.op] at h

/-- R69: what a hash's line leaves 0. -/
theorem asmRequest_arg_of_hash (v : Nat) {l : AsmLine} (h : 2 ≤ (asmInstr l).op.toNat) :
    (asmRequest v l).arg = 0 := by
  cases l with
  | fmix32 arg => simp [asmInstr, Instr.op] at h
  | fmix64 arg => simp [asmInstr, Instr.op] at h
  | hash32 sgn key seed => rfl
  | hash128x64 sgn key seed => rfl
  | hash sgn width key seed => rfl

/-- R69: only the dispatcher's line fills WIDTH. -/
theorem asmRequest_width_of_lt (v : Nat) {l : AsmLine} (h : (asmInstr l).op.toNat < 4) :
    (asmRequest v l).width = 0 := by
  cases l with
  | fmix32 arg => rfl
  | fmix64 arg => rfl
  | hash32 sgn key seed => rfl
  | hash128x64 sgn key seed => rfl
  | hash sgn width key seed => simp [asmInstr, Instr.op] at h

/-- R69, R131: a `hash 32` line keeps OP = 4, and has the response of the `hash32` line. -/
theorem respondTo_asmRequest_hash (v : Nat) (sgn : Bool) (key : List Byte) (seed : Option W32) (K : Nat → Byte) :
    respondTo (asmRequest v (.hash sgn 32 key seed)) K = respondTo (asmRequest v (.hash32 sgn key seed)) K := by
  have hwidth : (asmRequest v (.hash sgn 32 key seed)).width.toNat = 32 := rfl
  simp only [respondTo, decode_asmRequest, asmInstr, if_pos hwidth]
  rfl

/-! ### The run of a line's moves -/

@[simp] theorem keyWrites_length (v i : Nat) (bs : List Byte) : (keyWrites v i bs).length = bs.length := by
  induction bs generalizing i with
  | nil => rfl
  | cons b bs ih => simp [keyWrites, ih]

/-- The key bytes `bs` have been written to view `v` from offset `i` on: `u` is `s` but for the key memory and the
marks of transactions in progress, no channel is newly Busy, and what is left to do is `ms`. -/
structure KeyWritten (v i : Nat) (bs : List Byte) (ms : List Move) (s u : State) : Prop where
  schedule : u.schedule = ms
  waiting : u.waiting = s.waiting
  responses : u.responses = s.responses
  idle : ∀ c, tableGet c s.channels = none → tableGet c u.channels = none
  before : ∀ j, j < i → u.mem.read (keyAddr v j) = s.mem.read (keyAddr v j)
  bytes : ∀ j, j < bs.length → u.mem.read (keyAddr v (i + j)) = bs.getD j 0

/-- The scheduled writes of a key that fits its view put its bytes there. -/
theorem run_keyWrites {v : Nat} {ms : List Move} (bs : List Byte) {i : Nat} {s : State}
    (hs : s.schedule = keyWrites v i bs ++ ms) (hfit : i + bs.length ≤ 2 ^ 32) :
    ∃ u, core.run bs.length s = .next u ∧ KeyWritten v i bs ms s u := by
  induction bs generalizing i s with
  | nil => exact ⟨s, rfl, hs, rfl, rfl, fun _ => id, fun _ _ => rfl, by simp⟩
  | cons b bs ih =>
    rw [List.length_cons] at hfit
    have hi : (BitVec.ofNat 32 i).toNat = i := by
      rw [BitVec.toNat_ofNat, Nat.mod_eq_of_lt (by omega)]
    obtain ⟨u, hrun, h⟩ := ih (i := i + 1) (s := keyWrite v (BitVec.ofNat 32 i) b s.pop)
      (congrArg List.tail hs) (by omega)
    have hstep : step s = .next (keyWrite v (BitVec.ofNat 32 i) b s.pop) := step_of_move (nextMove_cons hs)
    refine ⟨u, (run_succ_of_step _ hstep).trans hrun, h.schedule, h.waiting, h.responses, fun c hc => ?_,
      fun j hj => ?_, fun j hj => ?_⟩
    · exact h.idle c ((tableGet_keyWrite v _ b s.pop c).trans (congrArg _ hc))
    · have hne : keyAddr v j ≠ keyAddr v i := fun ha => by
        have := (keyAddr_inj (by omega) (by omega) ha).2
        omega
      rw [h.before j (by omega), keyWrite_mem, hi, Memory.read_write_of_ne _ hne, State.pop_mem]
    · cases j with
      | zero => rw [Nat.add_zero, h.before i (by omega), keyWrite_mem, hi, Memory.read_write_self, List.getD_cons_zero]
      | succ j => rw [List.getD_cons_succ, ← h.bytes j (by simpa using hj), Nat.add_right_comm, Nat.add_assoc]

/-- A request presented, accepted and answered, with nothing between, on an Idle channel with nothing waiting: it gets
the reply to its unmarked transaction. -/
theorem run_request {s : State} {c : Nat} {r : Request} (hc : c < Config.nch)
    (hs : s.schedule = [.present c r, .accept c, .respond c]) (hidle : tableGet c s.channels = none)
    (hwait : ∀ e ∈ s.waiting, e.1 ≠ c) :
    ∃ u, core.run 3 s = .next u
      ∧ u.responses = s.responses ++ [(c, (reply ⟨r, false⟩ s.mem s.freeDraws).1)]
      ∧ tableGet c u.channels = none ∧ u.waiting = s.waiting := by
  have hpresent := (presentedRequestWaits s c r (nextMove_cons hs)).1 hc
  have haccept := acceptIssuesOldest { s.pop with waiting := s.waiting ++ [(c, r)] } c r s.waiting []
    (nextMove_cons (congrArg List.tail hs)) hidle rfl hwait
  have hrespond := step_respond_eq (c := c) (t := ⟨r, false⟩)
    (s := { s.pop.pop with channels := tableSet c ⟨r, false⟩ s.channels, waiting := s.waiting ++ [] })
    (nextMove_cons (congrArg (List.tail ∘ List.tail) hs)) (tableGet_tableSet_self c _ _)
  have hrun := (run_succ_of_step 2 hpresent).trans
    ((run_succ_of_step 1 haccept).trans (run_succ_of_step 0 hrespond))
  exact ⟨_, hrun, rfl, tableGet_tableErase_self c _, List.append_nil s.waiting⟩

end Sys2Proof.Machine
end

section
/-! The statements of spec/30_encoding.md: the command word, what a response reads of its request, and the assembler. -/

namespace Sys2Proof.Machine

/-! ### The command word (R60, R62, R65, R66) -/

/-- Settles O3: a word is its fields, and the decoder tests the fields that the encoder lays out. -/
theorem decodeEncodeAgree : Obligations.DecodeEncodeAgree := fun _ _ _ => decode_eq_ok_iff

/-- Settles O2: the fields as numbers select the arm of the decoder. -/
theorem decoderFollowsRule : Obligations.DecoderFollowsRule := by
  intro w
  refine ⟨fun h => if_pos ((cmdRsv_ne_zero_iff w).mpr h), fun h => ?_⟩
  have hrsv : ¬ cmdRsv w ≠ 0 := mt (cmdRsv_ne_zero_iff w).mp (Nat.not_le.mpr h)
  refine ⟨fun hop => ?_, fun hop => ?_, fun hop => ?_, fun hop => ?_, fun hop => ?_, fun hop => ?_⟩
  all_goals simp only [decode, if_neg hrsv, cmdOp_toNat, cmdSgn_eq w h]
  · simp [hop]
  · simp [hop]
  · simp [hop]
  · simp [hop]
  · simp [hop]
  · have h567 : w.toNat % 8 = 5 ∨ w.toNat % 8 = 6 ∨ w.toNat % 8 = 7 := by omega
    rcases h567 with h' | h' | h' <;> simp [h']

/-- Settles O4: the words that decode are the encodings, and those are the words that the clauses leave. -/
theorem legalWordsAreEight : Obligations.LegalWordsAreEight := fun w =>
  ⟨exists_decode_eq_ok_iff w, cmdLegal_iff_mem w⟩

/-- Settles O1: each word's fields are literals. -/
theorem decodedSpecWords : Obligations.DecodedSpecWords := by
  unfold Obligations.DecodedSpecWords
  decide

/-! ### What a response reads (R64, R65) -/

/-- Settles O5: a word that breaks a clause of R65 is not decoded, and the error's response is drawn from the free
value number alone. -/
theorem illegalCommandEndsTransaction : Obligations.IllegalCommandEndsTransaction := by
  refine ⟨fun n => ⟨errorResponse .illegalCommand n, rfl, fun s c t hn ht hcmd => ?_⟩, fun s c t ht hcmd harg => ?_⟩
  · obtain ⟨e, he⟩ := exists_decode_eq_error ((cmdLegal_eq_false_iff _).mpr hcmd)
    rw [respond_illegal ht he, ← hn]
    rfl
  · have hd : decode t.req.cmd = .ok .fmix32 := by
      rw [hcmd]
      decide
    refine ⟨errorResponse .illegalOperand s.freeDraws, rfl, ?_⟩
    rw [respond_busy ht hd, exec_eq .fmix32 (s := s.serve c) rfl ht, instrReply_fmix32_of_argHigh harg]
    rfl

/-- Settles O51: both transactions get the one reply. -/
theorem responseReadsListedFieldsOnly : Obligations.ResponseReadsListedFieldsOnly := by
  intro s s' c c' t t' ht ht' hcmd hdraws hreads
  have hreply := reply_congr hcmd hreads s.freeDraws
  refine ⟨_, _, _, respond_eq ht, State.replied_responses _ _ _, respond_eq ht', ?_, ?_⟩
  · rw [State.replied_responses, hreply, hdraws]
  · rw [State.replied_freeDraws, State.replied_freeDraws, hreply, hdraws]

/-! ### The assembler (R68, R69, R163) -/

/-- Settles O53: the writes leave the line's key in the view, and the request then gets the reply that R37 allows for
it. -/
theorem assembledLineIsAnswered : Obligations.AssembledLineIsAnswered := by
  intro c v l ms s hc hms hs hidle hwait
  obtain ⟨r, hr, rfl⟩ := Option.map_eq_some_iff.mp hms
  obtain ⟨hfit, rfl⟩ := assemble_eq_some_iff.mp hr
  obtain ⟨s', hwrites, h⟩ := run_keyWrites (asmKey l) hs (by omega)
  obtain ⟨u, hrun, hresp, hdone, hwaiting⟩ :=
    run_request hc h.schedule (h.idle c hidle) (h.waiting ▸ hwait)
  have hkey : ∀ i, i < (asmRequest v l).klen.toNat →
      keyByte s'.mem (asmRequest v l) i = (asmKey l).getD i 0 := fun i hi => by
    have hbyte := h.bytes i (by rwa [asmRequest_klen_toNat v hfit] at hi)
    rwa [Nat.zero_add] at hbyte
  refine ⟨_, u, _, hr, ?_, hresp.trans (by rw [h.responses]), hdone, hwaiting.trans h.waiting, ?_⟩
  · rw [List.length_append, keyWrites_length]
    exact (run_add _ 3 hwrites).trans hrun
  · rw [← respondTo_congr hkey]
    exact (reply_form ⟨asmRequest v l, false⟩ s'.mem).admits rfl _

/-- Settles O54: each field of the line's request by the form of the line. -/
theorem assemblerDefaults : Obligations.AssemblerDefaults := by
  refine ⟨fun v sgn width key => ⟨rfl, rfl, rfl⟩, by decide, by decide, by decide, by decide, by decide, by decide,
    fun v l r hr => ?_, fun v sgn key seed r r' K hr hr' => ?_⟩
  · obtain ⟨hfit, rfl⟩ := assemble_eq_some_iff.mp hr
    exact ⟨decode_asmRequest v l, asmRequest_klen_toNat v hfit, asmRequest_of_finalizer v, asmRequest_arg_of_hash v,
      asmRequest_width_of_lt v⟩
  · obtain ⟨-, rfl⟩ := assemble_eq_some_iff.mp hr
    obtain ⟨-, rfl⟩ := assemble_eq_some_iff.mp hr'
    exact respondTo_asmRequest_hash v sgn key seed K

end Sys2Proof.Machine
end

section
/-! SUPPORT. The finalizers as one function of their shifts and factors: its values as natural numbers, and why it is a
bijection (R80, R82, R85). -/

namespace Sys2Proof.Machine

/-! ### The steps -/

/-- The step is linear over xor, and the one word equal to its own right shift is 0. -/
theorem xorShift_injective {n s : Nat} (hs : s ≠ 0) : Function.Injective fun x : BitVec n => x ^^^ (x >>> s) := by
  intro x y (h : x ^^^ (x >>> s) = y ^^^ (y >>> s))
  have hrepeat : x ^^^ y = (x ^^^ y) >>> s := by
    rw [BitVec.ushiftRight_xor_distrib, ← BitVec.xor_eq_zero_iff]
    calc x ^^^ y ^^^ (x >>> s ^^^ y >>> s) = (x ^^^ (x >>> s)) ^^^ (y ^^^ (y >>> s)) := by ac_rfl
      _ = 0#n := BitVec.xor_eq_zero_iff.mpr h
  have hzero : (x ^^^ y).toNat = 0 := by
    have hdiv : (x ^^^ y).toNat = (x ^^^ y).toNat / 2 ^ s := by
      rw [← Nat.shiftRight_eq_div_pow, ← BitVec.toNat_ushiftRight, ← hrepeat]
    by_contra hne
    exact (Nat.div_lt_self (Nat.pos_of_ne_zero hne) (Nat.one_lt_two_pow hs)).ne hdiv.symm
  exact BitVec.xor_eq_zero_iff.mp (BitVec.eq_of_toNat_eq hzero)

/-- An odd factor can be cancelled modulo 2^n. -/
theorem mul_ofNat_injective {n c : Nat} (hc : Odd c) : Function.Injective fun x : BitVec n => x * BitVec.ofNat n c := by
  intro x y (h : x * BitVec.ofNat n c = y * BitVec.ofNat n c)
  have hmod : x.toNat * c ≡ y.toNat * c [MOD 2 ^ n] := by
    simpa only [Nat.ModEq, BitVec.toNat_mul, BitVec.toNat_ofNat, Nat.mul_mod_mod] using congrArg BitVec.toNat h
  have hcoprime : Nat.gcd (2 ^ n) c = 1 := hc.coprime_two_left.pow_left n
  exact BitVec.eq_of_toNat_eq ((hmod.cancel_right_of_coprime hcoprime).eq_of_lt_of_lt x.isLt y.isLt)

/-! ### The finalizers -/

/-- The form of both finalizers on words of `n` bits: xor-shifts by `s`, `t` and `u`, with products by `c` and `d`
between them. -/
def finalizer (n s c t d u : Nat) (x : BitVec n) : BitVec n :=
  let x := x ^^^ (x >>> s)
  let x := x * BitVec.ofNat n c
  let x := x ^^^ (x >>> t)
  let x := x * BitVec.ofNat n d
  x ^^^ (x >>> u)

theorem fmix32_eq_finalizer : fmix32 = finalizer 32 16 0x85ebca6b 13 0xc2b2ae35 16 := rfl

theorem fmix64_eq_finalizer : fmix64 = finalizer 64 33 0xff51afd7ed558ccd 33 0xc4ceb9fe1a85ec53 33 := rfl

theorem toNat_finalizer {n c d : Nat} (hc : c < 2 ^ n) (hd : d < 2 ^ n) (s t u : Nat) (x : BitVec n) :
    (finalizer n s c t d u x).toNat
      = natXorShift u (natMul n d (natXorShift t (natMul n c (natXorShift s x.toNat)))) := by
  rw [finalizer, toNat_xorShift, toNat_mul_ofNat _ hd, toNat_xorShift, toNat_mul_ofNat _ hc, toNat_xorShift]

theorem finalizer_bijective {n s c t d u : Nat} (hs : s ≠ 0) (hc : Odd c) (ht : t ≠ 0) (hd : Odd d) (hu : u ≠ 0) :
    Function.Bijective (finalizer n s c t d u) :=
  Finite.injective_iff_bijective.mp <|
    (xorShift_injective hu).comp <| (mul_ofNat_injective hd).comp <| (xorShift_injective ht).comp <|
      (mul_ofNat_injective hc).comp (xorShift_injective hs)

theorem fmix32_bijective : Function.Bijective fmix32 := by
  rw [fmix32_eq_finalizer]
  exact finalizer_bijective (by decide) (by decide) (by decide) (by decide) (by decide)

theorem fmix64_bijective : Function.Bijective fmix64 := by
  rw [fmix64_eq_finalizer]
  exact finalizer_bijective (by decide) (by decide) (by decide) (by decide) (by decide)

@[simp] theorem fmix32_zero : fmix32 0 = 0 := by decide

@[simp] theorem fmix64_zero : fmix64 0 = 0 := by decide

/-! ### Their replies (R81, R83) -/

/-- An OK response field by field, its result word extended by its value. -/
theorem okResponse_eq {n : Nat} (w : ResultWidth) (r : BitVec n) (sgn : Bool) :
    okResponse w r sgn
      = { status := 0, result := BitVec.ofNat 128 r.toNat, rwidth := widthCode w, rsgn := BitVec.ofBool sgn } := by
  rw [BitVec.ofNat_toNat]
  rfl

/-- R81: FMIX32 with no bit set above bit 31 of its operand. -/
theorem instrReply_fmix32_of_lt {t : Transaction} (h : t.req.arg.toNat < 2 ^ 32) (m : Memory) (d : Nat) :
    instrReply .fmix32 t m d = (okResponse .w32 (fmix32 (BitVec.ofNat 32 t.req.arg.toNat)) false, false) := by
  rw [BitVec.ofNat_toNat, ← operandFmix32_eq]
  exact if_neg (not_not.mpr ((argHigh_eq_zero_iff t.req).mpr h))

end Sys2Proof.Machine
end

section
/-! The statements of spec/40_finalizers.md. -/

namespace Sys2Proof.Machine

/-! ### The functions (R80, R82, R84, R85) -/

/-- Settles O9: each step is injective on words of the width, which are finitely many. -/
theorem finalizersBijective : Obligations.FinalizersBijective := ⟨fmix32_bijective, fmix64_bijective⟩

/-- Settles O10: zero goes to zero, and by injectivity nothing else does. -/
theorem finalizersFixOnlyZero : Obligations.FinalizersFixOnlyZero :=
  ⟨fun _ => fmix32_bijective.injective.eq_iff' fmix32_zero, fun _ => fmix64_bijective.injective.eq_iff' fmix64_zero⟩

/-- Settles O7: the general form with both factors words of 32 bits. -/
theorem fmix32FollowsRule : Obligations.Fmix32FollowsRule := fun h => by
  rw [fmix32_eq_finalizer, toNat_finalizer (by decide) (by decide)]

/-- Settles O8: the general form with both factors words of 64 bits. -/
theorem fmix64FollowsRule : Obligations.Fmix64FollowsRule := fun h => by
  rw [fmix64_eq_finalizer, toNat_finalizer (by decide) (by decide)]

/-! ### The operations (R81, R83) -/

/-- Settles O11: the operand has 32 bits, so the reply is its word and draws no free value. -/
theorem execFmix32Result : Obligations.ExecFmix32Result := by
  intro s c t hs ht harg
  rw [exec_eq .fmix32 hs ht, instrReply_fmix32_of_lt harg, okResponse_eq]
  rfl

/-- Settles O12: the operand has more bits, so the reply is the error, drawn from the free value number. -/
theorem execFmix32IllegalOperand : Obligations.ExecFmix32IllegalOperand := by
  intro s c t hs ht harg
  refine ⟨errorResponse .illegalOperand s.freeDraws, rfl, ?_⟩
  rw [exec_eq .fmix32 hs ht, instrReply_fmix32_of_argHigh harg]
  rfl

/-- Settles O13: the reply is the operand's word, whatever the operand. -/
theorem execFmix64Result : Obligations.ExecFmix64Result := by
  intro s c t hs ht
  rw [exec_eq .fmix64 hs ht, instrReply, okResponse_eq]
  rfl

end Sys2Proof.Machine
end

section
/-! SUPPORT. The bytes of a packed tail (R94, R114), and the key as a list of bytes: what is read at offsets is what
stands in the list's blocks and tail (R40, R90, R110). -/

namespace Sys2Proof.Machine

/-- Byte `j` of a packed tail, in a word of any width that has such a byte. -/
theorem extractLsb'_packTail {w j : Nat} (hj : 8 * j + 8 ≤ w) (K : Nat → Byte) (base t : Nat) :
    (packTail w K base t).extractLsb' (8 * j) 8 = if j < t then K (base + j) else 0 := by
  apply BitVec.eq_of_getLsbD_eq
  intro i hi
  have hbyte : (8 * j + i) / 8 = j := by omega
  have hbit : (8 * j + i) % 8 = i := by omega
  rw [BitVec.getLsbD_extractLsb', getLsbD_packTail, hbyte, hbit]
  by_cases h : j < t
  · simp [h, hi, show 8 * j + i < w by omega]
  · simp [h]

/-- A 32-bit key word is a full packing of four bytes. -/
theorem memRead32_eq_packTail (K : Nat → Byte) (i : Nat) : memRead32 K i = packTail 32 K i 4 := by
  apply BitVec.eq_of_getLsbD_eq
  intro j hj
  rw [getLsbD_memRead32, getLsbD_packTail, decide_eq_true (show j / 8 < 4 by omega), Bool.true_and]

/-! ### Slices of a list -/

/-- The little-endian word of `n` bytes of a list, fewer at its end, is their packing. -/
theorem leWord_slice (w : Nat) (bs : List Byte) (base n : Nat) :
    leWord w ((bs.drop base).take n) = packTail w (fun i => bs.getD i 0) base n := by
  apply BitVec.eq_of_getLsbD_eq
  intro i _
  rw [getLsbD_leWord, getLsbD_packTail, List.getD_eq_getElem?_getD, List.getElem?_take, List.getElem?_drop]
  by_cases h : i / 8 < n
  · simp [h]
  · simp [h]

theorem tailBytes_length (n : Nat) (bs : List Byte) : (tailBytes n bs).length = bs.length % n := by
  rw [tailBytes, List.length_drop, Nat.mod_def]

theorem tailBytes_eq_slice (n : Nat) (bs : List Byte) :
    tailBytes n bs = (bs.drop (n * (bs.length / n))).take (bs.length % n) :=
  (List.take_of_length_le (tailBytes_length n bs).le).symm

/-- A pass over the blocks is a pass over their numbers. -/
theorem foldl_fullBlocks {α : Type} (n : Nat) (bs : List Byte) (f : α → List Byte → α) (a : α) :
    (fullBlocks n bs).foldl f a
      = (List.range (bs.length / n)).foldl (fun a i => f a ((bs.drop (n * i)).take n)) a :=
  List.foldl_map

/-! ### The key of a request -/

@[simp] theorem keyList_length (m : Memory) (r : Request) : (keyList m r).length = keyLength r := by
  simp [keyList, keyLength]

theorem keyList_getD (m : Memory) (r : Request) {i : Nat} (hi : i < keyLength r) :
    (keyList m r).getD i 0 = keyByte m r i := by
  rw [List.getD_eq_getElem _ _ (by simpa using hi)]
  simp [keyList]

end Sys2Proof.Machine
end

section
/-! SUPPORT. HASH32 on a list of bytes (R93 to R96), and the key mix and signed value that the hashes share (R91, R97,
R111). -/

namespace Sys2Proof.Machine

/-! ### The key mix -/

/-- The form of the key mixes of both hashes, in natural numbers: a product, a rotation, a product. -/
theorem toNat_mul_rotl_mul {n c r d : Nat} (hc : c < 2 ^ n) (hr : r < n) (hd : d < 2 ^ n) (k : BitVec n) :
    (rotl (k * BitVec.ofNat n c) r * BitVec.ofNat n d).toNat = natMul n d (natRotl n r (natMul n c k.toNat)) := by
  rw [toNat_mul_ofNat _ hd, toNat_rotl _ hr, toNat_mul_ofNat _ hc]

theorem mixK32_eq (k : W32) :
    mixK32 k = rotl (k * BitVec.ofNat 32 0xcc9e2d51) 15 * BitVec.ofNat 32 0x1b873593 := rfl

theorem block32_eq (h1 k1 : W32) :
    block32 h1 k1 = rotl (h1 ^^^ mixK32 k1) 13 * BitVec.ofNat 32 5 + BitVec.ofNat 32 0xe6546b64 := rfl

/-! ### Blocks and tail of a list -/

theorem blocks32_eq_foldl (K : Nat → Byte) (h1 : W32) (n : Nat) :
    blocks32 K h1 n = (List.range n).foldl (fun h i => block32 h (memRead32 K (4 * i))) h1 := by
  induction n with
  | zero => rfl
  | succ n ih => rw [blocks32, ih, List.range_succ, List.foldl_append, List.foldl_cons, List.foldl_nil]

theorem foldl_block32_fullBlocks (bs : List Byte) (seed : W32) :
    (fullBlocks 4 bs).foldl (fun h block => block32 h (leWord 32 block)) seed
      = blocks32 (fun i => bs.getD i 0) seed (bs.length / 4) := by
  simp only [foldl_fullBlocks, blocks32_eq_foldl, leWord_slice, memRead32_eq_packTail]

theorem foldTail32_tailBytes (bs : List Byte) (h1 : W32) :
    foldTail32 (tailBytes 4 bs) h1
      = tail32 (fun i => bs.getD i 0) (4 * (bs.length / 4)) (bs.length % 4) h1 := by
  have hword : leWord 32 (tailBytes 4 bs)
      = packTail 32 (fun i => bs.getD i 0) (4 * (bs.length / 4)) (bs.length % 4) := by
    rw [tailBytes_eq_slice, leWord_slice]
  rw [foldTail32, tail32, hword]
  by_cases ht : 0 < bs.length % 4
  · have hne : tailBytes 4 bs ≠ [] := List.ne_nil_of_length_pos ((tailBytes_length 4 bs).symm ▸ ht)
    rw [if_pos ht, if_neg (mt List.isEmpty_iff.mp hne)]
  · have hnil : tailBytes 4 bs = [] :=
      List.eq_nil_of_length_eq_zero ((tailBytes_length 4 bs).trans (Nat.eq_zero_of_not_pos ht))
    rw [if_neg ht, hnil]
    rfl

/-- R96 for a list of bytes. -/
theorem hash32_eq_digest32 (bs : List Byte) (seed : W32) :
    hash32 (fun i => bs.getD i 0) bs.length seed = digest32 bs seed := by
  rw [hash32, digest32, foldl_block32_fullBlocks, foldTail32_tailBytes]

/-- The hash of a request's key is the digest of its bytes as a list. -/
theorem hash32_keyByte (m : Memory) (r : Request) (seed : W32) :
    hash32 (keyByte m r) (keyLength r) seed = digest32 (keyList m r) seed := by
  rw [← hash32_eq_digest32, keyList_length]
  exact hash32_congr (fun _ hi => (keyList_getD m r hi).symm) seed

/-- R99 (a): no block and no tail, and the length xored in is 0. -/
theorem hash32_empty (K : Nat → Byte) (seed : W32) : hash32 K 0 seed = fmix32 seed :=
  congrArg fmix32 BitVec.xor_zero

/-! ### The signed value -/

/-- `toSigned_N` of R13 is the two's complement value of the low bits. -/
theorem toSigned_eq_toInt (n : Nat) (result : W128) : toSigned n result = (result.setWidth n).toInt := by
  rw [BitVec.toInt_eq_msb_cond, BitVec.msb_eq_getLsbD_last, Nat.cast_pow]
  rfl

/-- R97: a word with its top bit set stands for minus the complement plus 1. -/
theorem toInt_eq_neg_complement {n : Nat} (v : BitVec n) :
    v.toInt = if 2 ^ (n - 1) ≤ v.toNat then -(((v.toNat ^^^ (2 ^ n - 1)) + 1 : Nat) : Int) else (v.toNat : Int) := by
  have hnot : v.toNat ^^^ (2 ^ n - 1) = 2 ^ n - 1 - v.toNat := by
    rw [← BitVec.toNat_allOnes, ← BitVec.toNat_xor, BitVec.xor_allOnes, BitVec.toNat_not, BitVec.toNat_allOnes]
  have hlt := v.isLt
  rw [BitVec.toInt_eq_msb_cond, BitVec.msb_eq_decide, hnot]
  simp only [decide_eq_true_eq]
  split
  · omega
  · rfl

theorem toInt_emod_two_pow {n : Nat} (v : BitVec n) : v.toInt % 2 ^ n = (v.toNat : Int) := by
  have hbmod : v.toInt % (2 ^ n : Nat) = (v.toNat : Int) % (2 ^ n : Nat) := by
    rw [BitVec.toInt_eq_toNat_bmod, Int.bmod_emod]
  rw [← Int.natCast_mod, Nat.mod_eq_of_lt v.isLt] at hbmod
  exact_mod_cast hbmod

theorem widthBits_le (w : ResultWidth) : widthBits w ≤ 128 := by
  cases w <;> decide

/-- The value of an OK response, its result word of the width that the tag names (R33). -/
theorem responseValue_okResponse (w : ResultWidth) (v : BitVec (widthBits w)) (sgn : Bool) :
    responseValue (okResponse w v sgn) = some (if sgn then v.toInt else (v.toNat : Int)) := by
  have hlow : (okResponse w v sgn).result.setWidth (widthBits w) = v :=
    (BitVec.setWidth_setWidth_of_le v (widthBits_le w)).trans v.setWidth_eq
  have hwidth : widthOfCode (okResponse w v sgn).rwidth = some w := widthOfCode_widthCode w
  have hok : (okResponse w v sgn).status = statusCode .ok := rfl
  rw [responseValue, if_pos hok, hwidth, Option.map_some, toSigned_eq_toInt, toUnsigned, hlow]
  cases sgn <;> rfl

end Sys2Proof.Machine
end

section
/-! The statements of spec/41_hash32.md. -/

namespace Sys2Proof.Machine

/-! ### The steps (R91, R92, R94) -/

/-- Settles O15: both words have room for the bytes named, and the packing is one for all widths. -/
theorem tailPackingBytes : Obligations.TailPackingBytes :=
  fun K base t => ⟨fun _ _ _ => extractLsb'_packTail (by omega) K base t,
    fun _ _ _ => extractLsb'_packTail (by omega) K base t⟩

/-- Settles O17: each operator is its arithmetic in natural numbers, the constants words of 32 bits. -/
theorem block32FollowsRule : Obligations.Block32FollowsRule := by
  intro h1 k1
  constructor
  · rw [mixK32_eq, toNat_mul_rotl_mul (by decide) (by decide) (by decide)]
  · rw [block32_eq, toNat_mul5_add _ (by decide) (by decide), toNat_rotl _ (by decide), BitVec.toNat_xor]

/-! ### The function (R96, R99) -/

/-- Settles O18: the blocks and the tail read at offsets are the slices of the list. -/
theorem hash32IsStreaming : Obligations.Hash32IsStreaming := hash32_eq_digest32

/-- Settles O19: the empty key is finalized only, and the finalizer fixes 0. -/
theorem hash32EmptyKey : Obligations.Hash32EmptyKey :=
  fun K seed => ⟨hash32_empty K seed, (hash32_empty K 0).trans fmix32_zero⟩

/-! ### The operation and its value (R97, R98) -/

/-- Settles O20: the key is stable, so the operation delivers the digest of its bytes. -/
theorem execHash32Result : Obligations.ExecHash32Result := by
  intro sgn s c t hs ht hk
  rw [exec_hash32_of_current (State.current_of_serving hs ht), returnKeyed_stable hs _ _ _ hk, hash32_keyByte]
  rfl

/-- Settles O30: the word fits RESULT, and its value is its natural number or its two's complement value. -/
theorem signedValue : Obligations.SignedValue := by
  intro w v sgn
  refine ⟨BitVec.toNat_setWidth_of_le (widthBits_le w), rfl, ?_, fun x hx => ?_⟩
  · rw [responseValue_okResponse]
    cases sgn with
    | false => simp
    | true => simp only [if_true, true_and, toInt_eq_neg_complement]
  · rw [responseValue_okResponse] at hx
    cases hx
    cases sgn with
    | false => exact Int.emod_eq_of_lt (a := v.toNat) (Int.natCast_nonneg _) (by exact_mod_cast v.isLt)
    | true => exact toInt_emod_two_pow v

end Sys2Proof.Machine
end

section
/-! SUPPORT. HASH128X64 on a list of bytes (R111 to R117): its steps in natural numbers, and its blocks and tail read as
slices of the list. -/

namespace Sys2Proof.Machine

/-! ### The steps in natural numbers -/

theorem mixK1x64_eq (k : W64) :
    mixK1x64 k = rotl (k * BitVec.ofNat 64 0x87c37b91114253d5) 31 * BitVec.ofNat 64 0x4cf5ad432745937f := rfl

theorem mixK2x64_eq (k : W64) :
    mixK2x64 k = rotl (k * BitVec.ofNat 64 0x4cf5ad432745937f) 33 * BitVec.ofNat 64 0x87c37b91114253d5 := rfl

theorem block64_fst (h : Lanes) (k1 k2 : W64) :
    (block64 h k1 k2).1
      = (rotl (h.1 ^^^ mixK1x64 k1) 27 + h.2) * BitVec.ofNat 64 5 + BitVec.ofNat 64 0x52dce729 := rfl

/-- The second lane reads the first as the step has just written it. -/
theorem block64_snd (h : Lanes) (k1 k2 : W64) :
    (block64 h k1 k2).2
      = ((block64 h k1 k2).1 + rotl (h.2 ^^^ mixK2x64 k2) 31) * BitVec.ofNat 64 5 + BitVec.ofNat 64 0x38495ab5 := rfl

/-- A lane's combine: the inner sum need not be reduced first. -/
theorem toNat_add_mul5_add {n c : Nat} (hc : c < 2 ^ n) (h5 : 5 < 2 ^ n) (x y : BitVec n) :
    ((x + y) * BitVec.ofNat n 5 + BitVec.ofNat n c).toNat = natMulAdd5 n c (x.toNat + y.toNat) := by
  rw [toNat_mul5_add _ hc h5, BitVec.toNat_add, natMulAdd5, natMulAdd5]
  exact ((Nat.mod_modEq _ _).mul_right 5).add_right c

/-! ### Blocks and tail of a list -/

theorem memRead64_eq_packTail (K : Nat → Byte) (i : Nat) : memRead64 K i = packTail 64 K i 8 := by
  apply BitVec.eq_of_getLsbD_eq
  intro j hj
  rw [getLsbD_memRead64, getLsbD_packTail, decide_eq_true (show j / 8 < 8 by omega), Bool.true_and]

theorem leWord_slice_take (w : Nat) (bs : List Byte) (base n m : Nat) :
    leWord w (((bs.drop base).take n).take m) = packTail w (fun i => bs.getD i 0) base (min m n) := by
  rw [List.take_take, leWord_slice]

theorem leWord_slice_drop (w : Nat) (bs : List Byte) (base n m : Nat) :
    leWord w (((bs.drop base).take n).drop m) = packTail w (fun i => bs.getD i 0) (base + m) (n - m) := by
  rw [List.drop_take, List.drop_drop, leWord_slice]

theorem blocks64_eq_foldl (K : Nat → Byte) (h : Lanes) (n : Nat) :
    blocks64 K h n
      = (List.range n).foldl (fun h i => block64 h (memRead64 K (16 * i)) (memRead64 K (16 * i + 8))) h := by
  induction n with
  | zero => rfl
  | succ n ih => rw [blocks64, ih, List.range_succ, List.foldl_append, List.foldl_cons, List.foldl_nil]

/-- A block of 16 bytes is two words of 8. -/
theorem foldl_block64_fullBlocks (bs : List Byte) (h : Lanes) :
    (fullBlocks 16 bs).foldl (fun h block => block64 h (leWord 64 (block.take 8)) (leWord 64 (block.drop 8))) h
      = blocks64 (fun i => bs.getD i 0) h (bs.length / 16) := by
  simp only [foldl_fullBlocks, blocks64_eq_foldl, leWord_slice_take, leWord_slice_drop, memRead64_eq_packTail]
  rfl

theorem ite_isEmpty {α β : Type} (l : List α) (a b : β) :
    (if l.isEmpty then a else b) = if 0 < l.length then b else a := by
  cases l with
  | nil => rfl
  | cons x l => simp

/-- The tail's first 8 bytes and the rest of it, each lane left alone when it has none. -/
theorem foldTail64_tailBytes (bs : List Byte) (h : Lanes) :
    foldTail64 (tailBytes 16 bs) h
      = tail64 (fun i => bs.getD i 0) (16 * (bs.length / 16)) (bs.length % 16) h := by
  have hlow : leWord 64 ((tailBytes 16 bs).take 8)
      = packTail 64 (fun i => bs.getD i 0) (16 * (bs.length / 16)) (min (bs.length % 16) 8) := by
    rw [tailBytes_eq_slice, leWord_slice_take, min_comm]
  have hhigh : leWord 64 ((tailBytes 16 bs).drop 8)
      = packTail 64 (fun i => bs.getD i 0) (16 * (bs.length / 16) + 8) (bs.length % 16 - 8) := by
    rw [tailBytes_eq_slice, leWord_slice_drop]
  rw [foldTail64, tail64, hlow, hhigh]
  simp only [ite_isEmpty, List.length_drop, tailBytes_length, Nat.sub_pos_iff_lt]

/-! ### The hash of a list, of a request's key, and of no bytes -/

/-- R116 and R117 for a list of bytes: the digest's lanes one above the other. The hash cuts the length to 32 bits
before it extends it, so a longer list would be finished otherwise. -/
theorem hash128x64_eq_digest128 {bs : List Byte} (hL : bs.length < 2 ^ 32) (seed : W32) :
    hash128x64 (fun i => bs.getD i 0) bs.length seed = (digest128 bs seed).1 ++ (digest128 bs seed).2 := by
  rw [hash128x64, digest128, foldl_block64_fullBlocks, foldTail64_tailBytes,
    BitVec.setWidth_ofNat_of_le_of_lt (by decide) hL]

/-- The hash of a request's key is the digest of its bytes as a list, which KLEN keeps below 2^32. -/
theorem hash128x64_keyByte (m : Memory) (r : Request) (seed : W32) :
    hash128x64 (keyByte m r) (keyLength r) seed
      = (digest128 (keyList m r) seed).1 ++ (digest128 (keyList m r) seed).2 := by
  have hL : (keyList m r).length < 2 ^ 32 := (keyList_length m r).trans_lt r.klen.isLt
  rw [← hash128x64_eq_digest128 hL, keyList_length]
  exact hash128x64_congr (fun _ hi => (keyList_getD m r hi).symm) seed

/-- R119: no block and no tail, so the seed's lanes are finished with the length 0. -/
theorem hash128x64_empty (K : Nat → Byte) (seed : W32) :
    hash128x64 K 0 seed
      = (finish64 0 (seed.setWidth 64, seed.setWidth 64)).2 ++ (finish64 0 (seed.setWidth 64, seed.setWidth 64)).1 :=
  rfl

/-- The finalizer and the additions between the lanes keep 0. -/
theorem finish64_zero : finish64 0 (0, 0) = (0, 0) := by
  have hxor : (0 : W64) ^^^ 0 = 0 := BitVec.xor_self
  have hcross : crossAdd (0, 0) = (0, 0) := by decide
  rw [finish64, hxor, hcross, fmix64_zero, hcross]

end Sys2Proof.Machine
end

section
/-! The statements of spec/42_hash128x64.md. -/

namespace Sys2Proof.Machine

/-! ### The steps (R111, R112) -/

/-- Settles O21: each operator is its arithmetic in natural numbers, and the second lane reads the new first one. -/
theorem block64FollowsRule : Obligations.Block64FollowsRule := by
  intro h k1 k2
  refine ⟨?_, ?_, ?_, ?_⟩
  · rw [mixK1x64_eq, toNat_mul_rotl_mul (by decide) (by decide) (by decide)]
  · rw [mixK2x64_eq, toNat_mul_rotl_mul (by decide) (by decide) (by decide)]
  · rw [block64_fst, toNat_add_mul5_add (by decide) (by decide), toNat_rotl _ (by decide), BitVec.toNat_xor]
  · rw [block64_snd, toNat_add_mul5_add (by decide) (by decide), toNat_rotl _ (by decide), BitVec.toNat_xor]

/-! ### The function (R116, R117, R119) -/

/-- Settles O22: the hash is the two lanes joined, and each half gives its lane back. -/
theorem hash128IsStreaming : Obligations.Hash128IsStreaming := by
  intro bs seed hL
  rw [hash128x64_eq_digest128 hL]
  exact ⟨BitVec.extractLsb'_append_eq_left, BitVec.extractLsb'_append_eq_right⟩

/-- Settles O23: the empty key's hash does not name the key, and both lanes stay 0 through the finalization. -/
theorem hash128EmptyKey : Obligations.Hash128EmptyKey := by
  intro K K' seed
  have hseed : (0 : W32).setWidth 64 = (0 : W64) := rfl
  refine ⟨(hash128x64_empty K seed).trans (hash128x64_empty K' seed).symm, ?_⟩
  rw [hash128x64_empty, hseed, finish64_zero]
  rfl

/-! ### The operation (R118) -/

/-- Settles O24: the key is stable, so the operation delivers the digest of its bytes, all 128 bits of it. -/
theorem execHash128Result : Obligations.ExecHash128Result := by
  intro sgn s c t hs ht hk
  rw [exec_hash128x64_of_current (State.current_of_serving hs ht), returnKeyed_stable hs _ _ _ hk, hash128x64_keyByte,
    okResponse, BitVec.setWidth_eq]
  rfl

end Sys2Proof.Machine
end

section
/-! SUPPORT. The dispatcher on a width that is not legal (R130, R132), and the answer to a request whose command word has
been replaced. -/

namespace Sys2Proof.Machine

/-- R132: with any other WIDTH the dispatcher reads nothing more of the request. -/
theorem exec_hash_of_invalidWidth {s : State} {t : Transaction} (hc : s.current = some t)
    (h32 : t.req.width ≠ 32) (h128 : t.req.width ≠ 128) (sgn : Bool) :
    exec (.hash sgn) s = raise .invalidWidth s := by
  have hh : hashWidth t.req = none := by rw [hashWidth, if_neg h32, if_neg h128]
  simp only [exec, execHash, hc, hh]

/-- An operation reads its request's other fields, never CMD (R64). -/
theorem instrReply_setCmd (i : Instr) (t : Transaction) (w : W32) (m : Memory) (d : Nat) :
    instrReply i { t with req := { t.req with cmd := w } } m d = instrReply i t m d :=
  instrReply_congr ⟨fun _ => rfl, fun _ => ⟨rfl, rfl, rfl, fun _ _ => rfl⟩, fun _ => rfl⟩ d

theorem tableGet_placeCommand {s : State} {c : Nat} {t : Transaction} (ht : tableGet c s.channels = some t)
    (w : W32) :
    tableGet c (placeCommand c w s).channels = some { t with req := { t.req with cmd := w } } := by
  rw [placeCommand, ht]
  exact tableGet_tableSet_self c _ _

theorem placeCommand_replied (s : State) (c : Nat) (w : W32) (x : Response × Bool) :
    (placeCommand c w s).replied c x = s.replied c x := by
  simp only [State.replied, placeCommand, tableErase_tableSet]

/-- Answering a Busy channel with an operation's command word carries out that operation; the word itself leaves no
trace, because the response ends the transaction that holds it. -/
theorem respond_placeCommand {s : State} {c : Nat} {t : Transaction} (ht : tableGet c s.channels = some t)
    (i : Instr) : respond c (placeCommand c (encode i) s) = exec i (s.serve c) := by
  have hp := tableGet_placeCommand ht (encode i)
  calc respond c (placeCommand c (encode i) s)
      = exec i ((placeCommand c (encode i) s).serve c) := respond_busy hp (decode_encode i)
    _ = .next ((placeCommand c (encode i) s).replied c (instrReply i t s.mem s.freeDraws)) := by
      rw [exec_eq i (s := (placeCommand c (encode i) s).serve c) rfl hp, instrReply_setCmd]
      rfl
    _ = .next (s.replied c (instrReply i t s.mem s.freeDraws)) := by rw [placeCommand_replied]
    _ = exec i (s.serve c) := (exec_eq i (s := s.serve c) rfl ht).symm

end Sys2Proof.Machine
end

section
/-! The statements of spec/43_dispatcher.md. -/

namespace Sys2Proof.Machine

/-- Settles O25: the dispatcher is the hash that WIDTH selects, so it completes as that hash does. -/
theorem execHashResult : Obligations.ExecHashResult := by
  intro sgn s c t hs ht hk
  have hc := State.current_of_serving hs ht
  refine ⟨fun hw => ?_, fun hw => ?_⟩
  · rw [exec_hash_of_width32 hc (BitVec.eq_of_toNat_eq hw)]
    exact execHash32Result sgn s c t hs ht hk
  · rw [exec_hash_of_width128 hc (BitVec.eq_of_toNat_eq hw)]
    exact execHash128Result sgn s c t hs ht hk

/-- Settles O26: the error's response is drawn from the free value number alone. -/
theorem execHashInvalidWidth : Obligations.ExecHashInvalidWidth := by
  intro n
  refine ⟨errorResponse .invalidWidth n, rfl, fun sgn s c t hn hs ht h32 h128 => ?_⟩
  rw [exec_hash_of_invalidWidth (State.current_of_serving hs ht) (ne_of_apply_ne BitVec.toNat h32)
    (ne_of_apply_ne BitVec.toNat h128), raise_eq hs, ← hn]
  rfl

/-- Settles O27: on the state both words are placed in, the dispatcher is the hash that WIDTH selects. -/
theorem dispatcherEquivalence : Obligations.DispatcherEquivalence := by
  intro sgn s c t ht
  have hc : (s.serve c).current = some t := State.current_of_serving rfl ht
  simp only [respond_placeCommand ht]
  exact ⟨fun hw => exec_hash_of_width32 hc hw sgn, fun hw => exec_hash_of_width128 hc hw sgn⟩

end Sys2Proof.Machine
end

section
/-! SUPPORT. The outcome of a transaction by its cause (R140, R144), that every reply carries its STATUS code, and where
a presented request comes from. -/

namespace Sys2Proof

/-- The command word of FMIX32 (R62). -/
theorem cmd_eq_zero_iff {w : W32} : w = 0 ↔ decode w = .ok .fmix32 := (decode_eq_ok_iff (i := .fmix32)).symm

/-- The two command words of the dispatcher (R62). -/
theorem cmd_hash_iff {w : W32} : w = 0x4 ∨ w = 0xC ↔ ∃ sgn, decode w = .ok (.hash sgn) := by
  simp only [decode_eq_ok_iff, Bool.exists_bool]
  exact Iff.rfl

/-- The outcome that R140 gives a request. Its causes exclude each other, and they are tested in the order of R144. -/
def Request.outcome (r : Request) : Status :=
  if cmdLegal r.cmd = false then .illegalCommand
  else if r.cmd = 0 ∧ 2 ^ 32 ≤ r.arg.toNat then .illegalOperand
  else if (r.cmd = 0x4 ∨ r.cmd = 0xC) ∧ r.width ≠ 32 ∧ r.width ≠ 128 then .invalidWidth
  else .ok

/-- The outcome reads CMD, ARG and WIDTH alone. -/
theorem Request.outcome_congr {r r' : Request} (hcmd : r.cmd = r'.cmd) (harg : r.arg = r'.arg)
    (hwidth : r.width = r'.width) : r.outcome = r'.outcome := by
  rw [outcome, outcome, hcmd, harg, hwidth]

section
variable {r : Request}

theorem Request.outcome_of_illegal (h : cmdLegal r.cmd = false) : r.outcome = .illegalCommand := if_pos h

/-- The outcome of a request whose command word decodes, by its operation. -/
theorem Request.outcome_of_decode {i : Instr} (h : decode r.cmd = .ok i) :
    r.outcome = if i = .fmix32 ∧ 2 ^ 32 ≤ r.arg.toNat then .illegalOperand
      else if (∃ sgn, i = .hash sgn) ∧ r.width ≠ 32 ∧ r.width ≠ 128 then .invalidWidth
      else .ok := by
  have hlegal : cmdLegal r.cmd = true := (exists_decode_eq_ok_iff _).mp ⟨i, h⟩
  simp only [outcome, hlegal, cmd_eq_zero_iff, cmd_hash_iff, h, Except.ok.injEq, Bool.true_eq_false, if_false]

theorem Request.outcome_eq_illegalCommand_iff : r.outcome = .illegalCommand ↔ cmdLegal r.cmd = false := by
  unfold outcome
  split_ifs with hillegal hoperand hwidth
  · exact iff_of_true rfl hillegal
  all_goals exact iff_of_false nofun hillegal

/-- FMIX32's word is legal, so its ARG check is reached. -/
theorem Request.outcome_eq_illegalOperand_iff :
    r.outcome = .illegalOperand ↔ r.cmd = 0 ∧ 2 ^ 32 ≤ r.arg.toNat := by
  have hlegal (h : r.cmd = 0) : cmdLegal r.cmd ≠ false := by rw [h]; decide
  unfold outcome
  split_ifs with hillegal hoperand hwidth
  · exact iff_of_false nofun fun h => hlegal h.1 hillegal
  · exact iff_of_true rfl hoperand
  all_goals exact iff_of_false nofun hoperand

/-- The dispatcher's words are legal and are not FMIX32's, so its WIDTH check is reached. -/
theorem Request.outcome_eq_invalidWidth_iff :
    r.outcome = .invalidWidth ↔ (r.cmd = 0x4 ∨ r.cmd = 0xC) ∧ r.width ≠ 32 ∧ r.width ≠ 128 := by
  have hword (h : r.cmd = 0x4 ∨ r.cmd = 0xC) : cmdLegal r.cmd ≠ false ∧ r.cmd ≠ 0 := by
    rcases h with h | h <;> rw [h] <;> decide
  unfold outcome
  split_ifs with hillegal hoperand hwidth
  · exact iff_of_false nofun fun h => (hword h.1).1 hillegal
  · exact iff_of_false nofun fun h => (hword h.1).2 hoperand.1
  · exact iff_of_true rfl hwidth
  · exact iff_of_false nofun hwidth

/-- A request completes when no check fails. -/
theorem Request.outcome_eq_ok_iff : r.outcome = .ok ↔ cmdLegal r.cmd = true
    ∧ (r.cmd = 0 → r.arg.toNat < 2 ^ 32) ∧ (r.cmd = 0x4 ∨ r.cmd = 0xC → r.width = 32 ∨ r.width = 128) := by
  unfold outcome
  split_ifs with hillegal hoperand hwidth
  · exact iff_of_false nofun fun ⟨hlegal, _⟩ => Bool.eq_false_iff.mp hillegal hlegal
  · exact iff_of_false nofun fun ⟨_, harg, _⟩ => Nat.not_lt.mpr hoperand.2 (harg hoperand.1)
  · exact iff_of_false nofun fun ⟨_, _, hw⟩ => not_or.mpr hwidth.2 (hw hwidth.1)
  · exact iff_of_true rfl ⟨Bool.eq_true_of_not_eq_false hillegal, fun h => Nat.not_le.mp (not_and.mp hoperand h),
      fun h => Decidable.not_not.mp fun hw => hwidth ⟨h, not_or.mp hw⟩⟩

end

end Sys2Proof

namespace Sys2Proof.Machine

theorem statusCode_injective : Function.Injective statusCode := fun e e' h => by
  cases e <;> cases e' <;> revert h <;> decide

/-- The outcome that a result of R37's response function stands for. -/
def resultOutcome : Except Status Response → Status
  | .ok _ => .ok
  | .error e => e

/-- R140's causes are the tests of R37's response function. -/
theorem resultOutcome_respondTo (r : Request) (K : Nat → Byte) : resultOutcome (respondTo r K) = r.outcome := by
  cases hd : decode r.cmd with
  | error e =>
    have hillegal : cmdLegal r.cmd = false := by
      rw [← Bool.not_eq_true, ← exists_decode_eq_ok_iff]
      simp [hd]
    rw [Request.outcome_of_illegal hillegal]
    simp only [respondTo, hd, resultOutcome]
  | ok i =>
    rw [Request.outcome_of_decode hd]
    cases i with
    | fmix32 =>
      by_cases harg : r.arg.toNat < 2 ^ 32
      · rw [if_neg fun h => Nat.not_le.mpr harg h.2, if_neg (fun h => nomatch h.1)]
        simp only [respondTo, hd, if_pos harg, resultOutcome]
      · rw [if_pos ⟨rfl, Nat.not_lt.mp harg⟩]
        simp only [respondTo, hd, if_neg harg, resultOutcome]
    | fmix64 => simp [respondTo, hd, resultOutcome]
    | hash32 sgn => simp [respondTo, hd, resultOutcome]
    | hash128x64 sgn => simp [respondTo, hd, resultOutcome]
    | hash sgn =>
      rcases hashWidth_cases r with ⟨hw, -⟩ | ⟨hw, -⟩ | ⟨h32, h128, -⟩
      · simp [respondTo, hd, hw, resultOutcome]
      · simp [respondTo, hd, hw, resultOutcome]
      · have h32' : r.width.toNat ≠ 32 := fun h => h32 (BitVec.eq_of_toNat_eq h)
        have h128' : r.width.toNat ≠ 128 := fun h => h128 (BitVec.eq_of_toNat_eq h)
        rw [if_neg (fun h => nomatch h.1), if_pos ⟨⟨sgn, rfl⟩, h32, h128⟩]
        simp only [respondTo, hd, if_neg h32', if_neg h128', resultOutcome]

/-- The STATUS of a reply is the code of its result's outcome, whatever the free value and the key's mark. -/
theorem ReplyForm.status {changed : Bool} {x : Except Status Response} {f : Nat → Response × Bool}
    (h : ReplyForm changed x f) (d : Nat) : (f d).1.status = statusCode (resultOutcome x) := by
  cases h <;> rfl

/-- R140: the STATUS of a reply is the code of its request's outcome. -/
theorem reply_status (t : Transaction) (m : Memory) (d : Nat) :
    (reply t m d).1.status = statusCode t.req.outcome := by
  rw [(reply_form t m).status d, resultOutcome_respondTo]

/-- The block presents no request itself: one that is presented was scheduled. -/
theorem schedule_eq_cons_of_present {s : State} {c : Nat} {r : Request} (h : nextMove s = some (.present c r)) :
    ∃ ms, s.schedule = .present c r :: ms := by
  rcases nextMove_cases h with hs | ⟨-, d, t, l, -, hr⟩ | ⟨-, -, d, q, l, -, ha⟩
  · exact hs
  · cases hr
  · cases ha

end Sys2Proof.Machine
end

section
/-! The statements of spec/60_exceptions.md. -/

namespace Sys2Proof.Machine

/-- Settles O46: a move that presents a request was scheduled, and every other move gives a next state. -/
theorem stepAnswersOrRefuses : Obligations.StepAnswersOrRefuses := by
  intro s
  by_cases h : ∀ c r, nextMove s = some (.present c r) → c < Config.nch
  · exact .inl (exists_step_of_present_lt h)
  · push Not at h
    obtain ⟨c, r, hm, hc⟩ := h
    obtain ⟨ms, hs⟩ := schedule_eq_cons_of_present hm
    exact .inr ⟨(presentedRequestWaits s c r hm).2 hc, c, r, ms, hs, hc⟩

/-- Settles O31: the response's STATUS is the code of the request's outcome, and each outcome has its causes. -/
theorem statusCauses : Obligations.StatusCauses := by
  intro s c t ht
  have hstatus (e : Status) :
      (reply t s.mem s.freeDraws).1.status = statusCode e ↔ t.req.outcome = e := by
    rw [reply_status, statusCode_injective.eq_iff]
  refine ⟨_, _, respond_eq ht, State.replied_responses _ _ _, (hstatus .ok).trans Request.outcome_eq_ok_iff,
    (hstatus .invalidWidth).trans Request.outcome_eq_invalidWidth_iff, (hstatus .illegalCommand).trans ?_,
    (hstatus .illegalOperand).trans Request.outcome_eq_illegalOperand_iff⟩
  rw [Request.outcome_eq_illegalCommand_iff, cmdLegal_eq_false_iff, or_left_comm]

/-- Settles O32: both responses carry the code of the one outcome. -/
theorem sameRequestSameStatus : Obligations.SameRequestSameStatus := by
  intro s s' c c' t t' ht ht' hcmd harg hwidth
  refine ⟨_, _, _, _, respond_eq ht, respond_eq ht', State.replied_responses _ _ _,
    State.replied_responses _ _ _, ?_⟩
  rw [reply_status, reply_status, Request.outcome_congr hcmd harg hwidth]

end Sys2Proof.Machine
end

section
/-! What waits on a channel over an acceptance (R165), and the whole of what the three moves of a request leave. -/

namespace Sys2Proof.Machine

/-- Accepting takes at most one request away, and that one is then its channel's transaction. -/
theorem waiting_accept {e : Nat × Request} {s : State} (he : e ∈ s.waiting) (c : Nat) :
    e ∈ (accept c s).waiting
      ∨ (c = e.1 ∧ tableGet e.1 s.channels = none ∧ tableGet e.1 (accept c s).channels = some ⟨e.2, false⟩) := by
  rcases accept_cases c s with h | ⟨r, rest, hidle, htake, h⟩
  · exact .inl (by rwa [h])
  obtain ⟨before, after, hw, rfl, -⟩ := takeFirst_eq_some htake
  rw [h]
  rw [hw] at he
  rcases List.mem_append.mp he with hb | he
  · exact .inl (List.mem_append_left after hb)
  rcases List.mem_cons.mp he with rfl | ha
  · exact .inr ⟨rfl, hidle, tableGet_tableSet_self c _ _⟩
  · exact .inl (List.mem_append_right before ha)

/-- The state that `run_request` reaches, in full: over its three moves an Idle channel's request leaves its reply,
and nothing else. -/
theorem run_request_eq {s : State} {c : Nat} {r : Request} (hc : c < Config.nch)
    (hs : s.schedule = [.present c r, .accept c, .respond c]) (hidle : tableGet c s.channels = none)
    (hwait : ∀ e ∈ s.waiting, e.1 ≠ c) :
    core.run 3 s = .next (s.pop.pop.pop.replied c (reply ⟨r, false⟩ s.mem s.freeDraws)) := by
  have hpresent := (presentedRequestWaits s c r (nextMove_cons hs)).1 hc
  have haccept := acceptIssuesOldest { s.pop with waiting := s.waiting ++ [(c, r)] } c r s.waiting []
    (nextMove_cons (congrArg List.tail hs)) hidle rfl hwait
  rw [List.append_nil] at haccept
  rw [run_succ_of_step 2 hpresent]
  refine (run_succ_of_step 1 haccept).trans ((run_succ_of_step 0 (step_respond_eq
    (nextMove_cons (congrArg (List.tail ∘ List.tail) hs)) (tableGet_tableSet_self c _ _))).trans ?_)
  simp only [State.replied, State.pop, tableErase_tableSet]
  rfl

end Sys2Proof.Machine
end

section
/-! The statements of spec/70_reset_and_hazards.md. -/

namespace Sys2Proof.Machine

/-- Settles O41: of the moves, only reset and an acceptance shorten what waits. -/
theorem heldRequestsStay : Obligations.HeldRequestsStay := by
  intro s u e h he
  rcases step_cases h with ⟨-, rfl⟩ | ⟨c, r, -, -, rfl⟩ | ⟨c, hm, rfl⟩ | ⟨c, -, -, rfl⟩
    | ⟨c, tr, p, hm, htr, -⟩ | ⟨v, o, b, -, rfl⟩ | ⟨hm, -⟩
  · exact .inl he
  · exact .inl (List.mem_append_left _ he)
  · rcases waiting_accept (s := s.pop) he c with hstay | ⟨rfl, hidle, hbusy⟩
    · exact .inl hstay
    · exact .inr (.inr ⟨hm, hidle, hbusy⟩)
  · exact .inl he
  · rw [eq_replied_of_step h hm htr]
    exact .inl he
  · exact .inl he
  · exact .inr (.inl hm)

/-- Settles O44: the block is at rest after reset, and its reply to a stable key is one that R37 allows. -/
theorem firstRequestAfterReset : Obligations.FirstRequestAfterReset := by
  intro c r m hc
  exact ⟨_, _, run_request_eq hc rfl rfl (List.forall_mem_nil _), State.replied_responses _ _ _, rfl, rfl, rfl,
    (reply_form ⟨r, false⟩ m).admits rfl _⟩

/-- Settles O38: the reset state lists nothing. -/
theorem resetStateIdle : Obligations.ResetStateIdle := ⟨tableGet_nil, rfl, rfl, rfl⟩

/-- Settles O39: the step is `resetBlock`, whose fields do not depend on what was in progress. -/
theorem resetAbandonsTransactions : Obligations.ResetAbandonsTransactions := by
  intro s ms hs
  have hstep : step s = .next (resetBlock s.pop) := step_of_move (nextMove_cons hs)
  exact ⟨_, hstep, tableGet_nil, resetBlock_waiting _, resetBlock_serving _, resetBlock_responses _, resetBlock_mem _,
    congrArg List.tail hs, resetBlock_freeDraws _⟩

/-- Settles O48: the tables are empty and no channel is being served. -/
theorem invariantAtReset : Obligations.InvariantAtReset where
  channelsRising := List.Pairwise.nil
  channelsExist := List.forall_mem_nil _
  waitingExist := List.forall_mem_nil _
  memCanonical := State.reset_mem_wf
  notServing := rfl

end Sys2Proof.Machine
end
